-- ==== Sys2Proof/Word.lean ====
section
/-! DEFINITION. The two value domains of the machine (10_state.md R10, R11) and nothing else. -/

namespace Sys2Proof

/-- A Word: an unsigned integer in 0..32767, 15 bits (R10). -/
abbrev Word := BitVec 15

/-- A Cell: an unsigned integer in 0..65535, 16 bits: a memory cell, a raw operand, an opcode word, a stack
entry (R11). -/
abbrev Cell := BitVec 16

/-- A Word stored in a Cell: the same number, bit 15 of the Cell is 0 (R11, `zext_16`). -/
abbrev zext16 (w : Word) : Cell := w.setWidth 16

end Sys2Proof
end

