-- ==== Sys2Proof/Syntax.lean ====
section
/-! DEFINITION. The instructions: one constructor for each of the 22 rows of the opcode table (30_encoding.md R74),
with its operands in operand-word order (R70). -/

namespace Sys2Proof

/-- A raw operand word, by its class (R67). The class is not yet a meaning: whether a literal, a register or an
invalid value is acceptable depends on the operand's role and is found when the operand is resolved (R66, R68, R69). -/
inductive Operand where
  /-- A literal, raw value 0..32767. -/
  | lit (v : Word)
  /-- A register reference, raw value 32768 + i. -/
  | reg (i : Fin 8)
  /-- An invalid operand word, raw value 32776..65535, kept as it was fetched. -/
  | invalid (raw : Cell)
  deriving DecidableEq, Repr

/-- The 22 instructions. -/
inductive Instr where
  /-- Opcode 0 (R180). -/
  | halt
  /-- Opcode 1 (R101). -/
  | set (dest src : Operand)
  /-- Opcode 2 (R102). -/
  | push (src : Operand)
  /-- Opcode 3 (R103). -/
  | pop (dest : Operand)
  /-- Opcode 4 (R110). -/
  | eq (dest a b : Operand)
  /-- Opcode 5 (R111). -/
  | gt (dest a b : Operand)
  /-- Opcode 6 (R120). -/
  | jmp (target : Operand)
  /-- Opcode 7 (R121). -/
  | jt (cond target : Operand)
  /-- Opcode 8 (R122). -/
  | jf (cond target : Operand)
  /-- Opcode 9 (R131). -/
  | add (dest a b : Operand)
  /-- Opcode 10 (R132). -/
  | mult (dest a b : Operand)
  /-- Opcode 11 (R133). -/
  | mod (dest a b : Operand)
  /-- Opcode 12 (R134). -/
  | and (dest a b : Operand)
  /-- Opcode 13 (R135). -/
  | or (dest a b : Operand)
  /-- Opcode 14 (R136). -/
  | not (dest a : Operand)
  /-- Opcode 15 (R150); `src` gives the memory address. -/
  | rmem (dest src : Operand)
  /-- Opcode 16 (R151); `dest` gives the memory address and is read (R73). -/
  | wmem (dest src : Operand)
  /-- Opcode 17 (R160). -/
  | call (target : Operand)
  /-- Opcode 18 (R161). -/
  | ret
  /-- Opcode 19 (R170). -/
  | out (arg : Operand)
  /-- Opcode 20, the table's `in` (R171); `in` is a word of Lean. -/
  | inp (dest : Operand)
  /-- Opcode 21 (R181). -/
  | noop
  deriving DecidableEq, Repr

/-- The operands of an instruction in operand-word order o[0], o[1], o[2] (R70). -/
def Instr.operands : Instr → List Operand
  | .halt => []
  | .set d a => [d, a]
  | .push a => [a]
  | .pop d => [d]
  | .eq d a b => [d, a, b]
  | .gt d a b => [d, a, b]
  | .jmp t => [t]
  | .jt c t => [c, t]
  | .jf c t => [c, t]
  | .add d a b => [d, a, b]
  | .mult d a b => [d, a, b]
  | .mod d a b => [d, a, b]
  | .and d a b => [d, a, b]
  | .or d a b => [d, a, b]
  | .not d a => [d, a]
  | .rmem d a => [d, a]
  | .wmem a v => [a, v]
  | .call t => [t]
  | .ret => []
  | .out a => [a]
  | .inp d => [d]
  | .noop => []

end Sys2Proof
end

