-- ==== Sys2Proof/WellFormed.lean ====
section
/-! DEFINITION. Which terms of `Instr` stand for an encoding: the one thing the types do not say is that an invalid
operand word lies in the invalid class (30_encoding.md R67). -/

namespace Sys2Proof

/-- The operand's raw value lies in its class: 32776..65535 for an invalid one (R67). -/
def Operand.wf : Operand → Bool
  | .lit _ => true
  | .reg _ => true
  | .invalid raw => decide (32776 ≤ raw.toNat)

/-- Every operand of the instruction is well formed. -/
def Instr.wf (i : Instr) : Bool := i.operands.all Operand.wf

end Sys2Proof
end

