-- ==== Sys2Proof/Decode.lean ====
section
/-! DEFINITION. The decoder (30_encoding.md R60 to R67), total on any cells, and the encoder written from the same
tables; the reading of an image's bytes as cells (20_memory.md R46, R56). -/

namespace Sys2Proof

/-- Why a list of cells is not an instruction. -/
inductive DecodeError where
  /-- There is no opcode word. -/
  | noOpcodeWord
  /-- The opcode word is in 22..65535 (R75, R206). -/
  | unknownOpcode (op : Cell)
  /-- The opcode is known and an operand word is missing (R50, R209). -/
  | operandMissing (op : Cell)
  /-- Bytes do not make whole cells. -/
  | oddBytes
  deriving DecidableEq, Repr

/-- The class of a raw operand word, with its value or index (R67): bit 15 clear is a literal, whose value is bits
14..0; otherwise bits 14..3 clear is a register reference, whose index is bits 2..0; otherwise it is invalid. -/
def operandOf (o : Cell) : Operand :=
  if o.toNat < 32768 then .lit (o.setWidth 15)
  else if o.toNat < 32776 then .reg ⟨o.toNat % 8, Nat.mod_lt _ (by decide)⟩
  else .invalid o

/-- The raw word of an operand. -/
def Operand.raw : Operand → Cell
  | .lit v => zext16 v
  | .reg i => BitVec.ofNat 16 (32768 + i.val)
  | .invalid raw => raw

/-- `ARITY[op]` for the opcodes 0..21 in order (R63). -/
def arityTable : List Nat := [0, 2, 1, 1, 3, 3, 1, 2, 2, 3, 3, 3, 3, 3, 2, 2, 2, 1, 0, 1, 1, 0]

/-- The arity of an opcode word; none for an unknown opcode (R63, R75). -/
def arity (op : Cell) : Option Nat := arityTable[op.toNat]?

/-- An instruction with no operand word, format F0 (R61). -/
def decodeF0 (i : Instr) (rest : List Cell) : Except DecodeError (Instr × List Cell) := .ok (i, rest)

/-- An instruction with one operand word, format F1 (R61). -/
def decodeF1 (op : Cell) (f : Operand → Instr) : List Cell → Except DecodeError (Instr × List Cell)
  | o0 :: rest => .ok (f (operandOf o0), rest)
  | _ => .error (.operandMissing op)

/-- An instruction with two operand words, format F2 (R61). -/
def decodeF2 (op : Cell) (f : Operand → Operand → Instr) : List Cell → Except DecodeError (Instr × List Cell)
  | o0 :: o1 :: rest => .ok (f (operandOf o0) (operandOf o1), rest)
  | _ => .error (.operandMissing op)

/-- An instruction with three operand words, format F3 (R61). -/
def decodeF3 (op : Cell) (f : Operand → Operand → Operand → Instr) :
    List Cell → Except DecodeError (Instr × List Cell)
  | o0 :: o1 :: o2 :: rest => .ok (f (operandOf o0) (operandOf o1) (operandOf o2), rest)
  | _ => .error (.operandMissing op)

/-- The opcode map (R74): the whole opcode word is compared as a number (R62), then the operand words of its format
follow. The answer is the instruction and the cells after it. -/
def decode : List Cell → Except DecodeError (Instr × List Cell)
  | [] => .error .noOpcodeWord
  | op :: rest =>
    match op.toNat with
    | 0 => decodeF0 .halt rest
    | 1 => decodeF2 op .set rest
    | 2 => decodeF1 op .push rest
    | 3 => decodeF1 op .pop rest
    | 4 => decodeF3 op .eq rest
    | 5 => decodeF3 op .gt rest
    | 6 => decodeF1 op .jmp rest
    | 7 => decodeF2 op .jt rest
    | 8 => decodeF2 op .jf rest
    | 9 => decodeF3 op .add rest
    | 10 => decodeF3 op .mult rest
    | 11 => decodeF3 op .mod rest
    | 12 => decodeF3 op .and rest
    | 13 => decodeF3 op .or rest
    | 14 => decodeF2 op .not rest
    | 15 => decodeF2 op .rmem rest
    | 16 => decodeF2 op .wmem rest
    | 17 => decodeF1 op .call rest
    | 18 => decodeF0 .ret rest
    | 19 => decodeF1 op .out rest
    | 20 => decodeF1 op .inp rest
    | 21 => decodeF0 .noop rest
    | _ => .error (.unknownOpcode op)

/-- The opcode of an instruction (R74). -/
def Instr.opcode : Instr → Nat
  | .halt => 0
  | .set _ _ => 1
  | .push _ => 2
  | .pop _ => 3
  | .eq _ _ _ => 4
  | .gt _ _ _ => 5
  | .jmp _ => 6
  | .jt _ _ => 7
  | .jf _ _ => 8
  | .add _ _ _ => 9
  | .mult _ _ _ => 10
  | .mod _ _ _ => 11
  | .and _ _ _ => 12
  | .or _ _ _ => 13
  | .not _ _ => 14
  | .rmem _ _ => 15
  | .wmem _ _ => 16
  | .call _ => 17
  | .ret => 18
  | .out _ => 19
  | .inp _ => 20
  | .noop => 21

/-- The cells of an instruction: its opcode word, then its raw operand words in order (R60, R61). -/
def encode (i : Instr) : List Cell := BitVec.ofNat 16 i.opcode :: i.operands.map Operand.raw

/-- The cell of two bytes, `lo + 256 * hi` (R46, R56). -/
def cellOfBytes (lo hi : BitVec 8) : Cell := BitVec.ofNat 16 (lo.toNat + 256 * hi.toNat)

/-- The low byte of a cell, the first in the image format (R46). -/
def lowByte (c : Cell) : BitVec 8 := BitVec.ofNat 8 c.toNat

/-- The high byte of a cell, the second in the image format (R46). -/
def highByte (c : Cell) : BitVec 8 := BitVec.ofNat 8 (c.toNat / 256)

/-- Image bytes as cells, little-endian: cell `i` is `b[2i] + 256 * b[2i+1]` (R46, R56). None for an odd count. -/
def cellsOfBytes : List (BitVec 8) → Option (List Cell)
  | [] => some []
  | [_] => none
  | lo :: hi :: rest => (cellsOfBytes rest).map fun cs => cellOfBytes lo hi :: cs

/-- The bytes of cells in the image format (R56). -/
def bytesOfCells (cs : List Cell) : List (BitVec 8) := cs.flatMap fun c => [lowByte c, highByte c]

/-- The decoder on bytes in the image format. -/
def decodeBytes (bs : List (BitVec 8)) : Except DecodeError (Instr × List Cell) :=
  match cellsOfBytes bs with
  | none => .error .oddBytes
  | some cs => decode cs

/-- The `n` cells of an instruction whose bits are `w`, bit 0 the least significant bit of the first cell and each
later cell's bits counting on. -/
def cellsOfWord : Nat → Nat → List Cell
  | 0, _ => []
  | n + 1, w => BitVec.ofNat 16 w :: cellsOfWord n (w / 65536)

/-- The instruction of a table row: the low `nbits` bits of `w`, all higher bits 0, laid out as the four cells of the
longest instruction and given to the decoder. -/
def decodeTableWord (nbits w : Nat) : Option Instr :=
  match decode (cellsOfWord 4 (w % 2 ^ nbits)) with
  | .ok (i, _) => some i
  | .error _ => none

end Sys2Proof
end

