-- ==== Sys2Proof/Config.lean ====
section
/-! DEFINITION. The parameters of the core (00_scope.md R3): the OPEN ones a rule of an instruction reads, as plain
data carried by the state, MEM_FILL, a free value with no body, and the constants. -/

namespace Sys2Proof

/-- What `ret` does on an empty stack: `RET_EMPTY_POLICY` (R3, R161, decision D6). -/
inductive RetEmptyPolicy where
  /-- Strict policy, the default: the fault `StackUnderflow`. -/
  | fault
  /-- Relaxed policy: `RUN_STATE` becomes `Halted`. -/
  | halt
  deriving DecidableEq, Repr

/-- The OPEN parameters of R3 that instruction rules read; an argument of the run, never changed by it. -/
structure Params where
  /-- `RET_EMPTY_POLICY` (R161). -/
  retEmptyPolicy : RetEmptyPolicy
  /-- `LINE_TERMINATOR_CODE` (R222), a character code: a natural number. -/
  lineTerminatorCode : Nat
  deriving DecidableEq, Repr

/-- The defaults of the table of R3: `fault` and 10 (assumption log entry 4). -/
def Params.defaults : Params := { retEmptyPolicy := .fault, lineTerminatorCode := 10 }

namespace Config

/-- `MEM_FILL`, the content of cells that neither the image nor a patch nor a store wrote, as a byte for each byte
address (R58, D20: "any value"). It has no body: nothing can be proved of a particular byte (log entry 2). -/
opaque memFill : Nat → BitVec 8

/-- `MEM_SIZE`: the number of memory cells (R3, R23). -/
def memSize : Nat := 32768

/-- `RESET_PC`: the entry point (R3, R49). -/
def resetPc : BitVec 16 := 0

/-- `REG_BASE`: the operand value that names register 0 (R3, R12). -/
def regBase : Nat := 32768

/-- `IMAGE_BASE` has the default 0 (R3, D21): the address of image word 0 where the host names no other. -/
def imageBase : Nat := 0

end Config

end Sys2Proof
end

