-- ==== Sys2Proof/Machine/State.lean ====
section
/-! DEFINITION. The state of the core, one field for each piece of state of 10_state.md, as plain data; the reasons a
step can stop; the state after reset (10_state.md R30). -/

namespace Sys2Proof.Machine

/-- `RUN_STATE` (R24). -/
inductive RunState where
  | running
  /-- The core is suspended inside `in` (R172). -/
  | waitingInput
  | halted
  | faulted
  deriving DecidableEq, Repr

/-- The six fault causes (R203); `FAULT_CAUSE` is one of them or `None`. -/
inductive FaultCause where
  /-- A resolved operand is invalid (R204). -/
  | addressOutOfRange
  /-- A destination operand is a literal (R205). -/
  | invalidWriteTarget
  /-- The opcode word is in 22..65535 (R206). -/
  | unknownOpcode
  /-- An entry is needed and the stack is empty (R207). -/
  | stackUnderflow
  /-- The divisor of `mod` is 0 (R208). -/
  | divisionByZeroModulus
  /-- An instruction word would lie at address 32768 or above (R209). -/
  | fetchOutOfRange
  deriving DecidableEq, Repr

/-- Why a step of the model has no next state. These are the stuck states of the spec (93_implementation_defined.md,
"stuck": no step is enabled), not the six faults of R203, whose entry is a next state (R210). -/
inductive Fault where
  /-- Raised by `step` when `RUN_STATE` is `Halted`: no instruction executes (R202, U14). Safe: the core does nothing. -/
  | coreHalted
  /-- Raised by `step` when `RUN_STATE` is `Faulted`: no instruction executes (R202, U14). Safe: the core does nothing. -/
  | coreFaulted
  /-- Raised by `step` when `RUN_STATE` is `WaitingInput` and no line is queued: only the host's delivery of a line
  goes on (R172, R225, U13). Safe: the core does nothing. -/
  | waitingForLine
  /-- Raised by `step` and by `deliverLine` when `RUN_STATE` is `WaitingInput` and `pc` is not at an `in` with a
  register destination, a state no run reaches (the invariant `Inv` of Safety.lean). Safe: the model stops. -/
  | waitingElsewhere
  deriving DecidableEq, Repr

/-- Why the model gives no meaning: an instruction not modelled, or a host transaction the spec refuses. -/
inductive Refusal where
  /-- An instruction without a meaning. Safe. No arm of `exec` answers it. -/
  | notModelled (mnemonic : String)
  /-- Raised by `loadImage` for an odd number of bytes (R56, U11). Safe: no state is defined. -/
  | imageOddBytes
  /-- Raised by `loadImage` when the image does not fit below address 32768 (R56, U11). Safe: no state is defined. -/
  | imageTooLong
  /-- Raised by `applyPatches` for an address above 32775 (R57, U12). Safe: no state is defined. -/
  | patchAddress
  /-- Raised by `applyPatches` for a memory value above 65535 (R57, U12). Safe: no state is defined. -/
  | patchValue
  deriving DecidableEq, Repr

/-- Memory: the bytes written so far, by byte address, in rising order of address. Cell `a` of the spec's Memory is
the bytes at 2a (low) and 2a+1 (high), the order of the image format (R46, R56; log entry 1). What a byte that
nothing has written reads as is said by `Memory.readByte` (log entry 2). -/
abbrev Memory := List Host.Cell

/-- The canonical form of Memory: addresses strictly rising, all below 65536 (32768 cells of two bytes). A byte not
listed is unwritten and holds no listed value, so no value is excluded from the list. -/
abbrev Memory.wf (m : Memory) : Prop :=
  m.Pairwise (fun x y => x.1 < y.1) ∧ ∀ c ∈ m, c.1 < 65536

/-- The state of the core (10_state.md, summary table). -/
structure State where
  /-- The eight general registers `x[0]`..`x[7]` (R12). -/
  regs : Vector Word 8
  /-- The program counter, 0..32768 (R16). -/
  pc : BitVec 16
  /-- The stack, its top the last element (R20, R21). -/
  stack : List Cell
  /-- Memory (R23). -/
  mem : Memory
  /-- `RUN_STATE` (R24). -/
  runState : RunState
  /-- `FAULT_CAUSE`, `none` for the spec's `None` (R25). -/
  faultCause : Option FaultCause
  /-- `OUT_TRACE`, in program order (R26). -/
  outTrace : List Word
  /-- `IC_BUF`, the current line of the Input Channel (R27). -/
  icBuf : List Nat
  /-- `IC_CUR`, the read cursor of the Input Channel (R27). -/
  icCur : Nat
  /-- `LINES`, the lines queued by the host and not yet taken, oldest first (R27, R221). -/
  lines : List (List Nat)
  /-- The OPEN parameters of the run (R3): the model's field, changed by nothing. -/
  params : Params
  deriving DecidableEq, Repr

/-- The state after reset (R30, R240). Memory is unspecified there: nothing is listed. -/
def State.reset : State where
  regs := Vector.replicate 8 0
  pc := Config.resetPc
  stack := []
  mem := []
  runState := .running
  faultCause := none
  outTrace := []
  icBuf := []
  icCur := 1
  lines := []
  params := Params.defaults

end Sys2Proof.Machine
end

