-- ==== Sys2Proof/Machine/Ops.lean ====
section
/-! DEFINITION. The operations over registers, program counter, stack, Memory, output and Input Channel that the
instructions share, each from its rule, and fault entry (60_exceptions.md R210). -/

namespace Sys2Proof.Machine

/-- What an instruction, a step or a host transaction answers. -/
abbrev Result := Host.Outcome State Fault Refusal

/-! ### Memory -/

/-- The byte listed for a byte address, if it was written. -/
def Memory.find : Memory → Nat → Option (BitVec 8)
  | [], _ => none
  | c :: m, k => if c.1 = k then some c.2 else Memory.find m k

/-- The byte at a byte address: the one written, else the free `MEM_FILL` (R43, R58; log entry 2). -/
def Memory.readByte (m : Memory) (k : Nat) : BitVec 8 := (Memory.find m k).getD (Config.memFill k)

/-- Write one byte, keeping the addresses rising. -/
def Memory.writeByte : Memory → Nat → BitVec 8 → Memory
  | [], k, b => [(k, b)]
  | c :: m, k, b =>
    if k < c.1 then (k, b) :: c :: m
    else if k = c.1 then (k, b) :: m
    else c :: Memory.writeByte m k b

/-- `MemRead(a, 1)`: the cell at address `a` (R43). -/
def Memory.readCell (m : Memory) (a : Word) : Cell :=
  cellOfBytes (Memory.readByte m (2 * a.toNat)) (Memory.readByte m (2 * a.toNat + 1))

/-- `MemWrite(a, 1, v)` (R44). -/
def Memory.writeCell (m : Memory) (a : Word) (v : Cell) : Memory :=
  Memory.writeByte (Memory.writeByte m (2 * a.toNat) (lowByte v)) (2 * a.toNat + 1) (highByte v)

/-- `MemRead(a, 1)` on the state (R43). -/
def State.memRead (s : State) (a : Word) : Cell := Memory.readCell s.mem a

/-- `MemWrite(a, 1, v)` on the state (R44). -/
def State.memWrite (s : State) (a : Word) (v : Cell) : State := { s with mem := Memory.writeCell s.mem a v }

/-! ### Registers and program counter -/

/-- Register read `x[i]` (R13). -/
def State.reg (s : State) (i : Fin 8) : Word := s.regs[i]

/-- Register write `x[i] <- v`: stores `v mod 32768` (R14). -/
def State.writeReg (s : State) (i : Fin 8) (v : Nat) : State :=
  { s with regs := s.regs.set i (BitVec.ofNat 15 v) }

/-- The default advance `pc <- pc + n`, `n` the length of the instruction in cells (R18). -/
def State.advance (s : State) (n : Nat) : State := { s with pc := s.pc + BitVec.ofNat 16 n }

/-- A control transfer `pc <- t` (R18). -/
def State.setPc (s : State) (t : BitVec 16) : State := { s with pc := t }

/-! ### Stack -/

/-- `Push(v)`: append to the stack (R21); it always succeeds (R20). -/
def State.push (s : State) (v : Cell) : State := { s with stack := s.stack ++ [v] }

/-- `Pop()`: the last element and the state without it; none when `StackEmpty()` (R21). -/
def State.pop (s : State) : Option (Cell × State) :=
  match s.stack.getLast? with
  | none => none
  | some v => some (v, { s with stack := s.stack.dropLast })

/-! ### Faults and the end of a run -/

/-- The state `raise F` leaves: `RUN_STATE <- Faulted`, `FAULT_CAUSE <- F`, nothing else (R210, R211). -/
def State.faultEntry (s : State) (f : FaultCause) : State :=
  { s with runState := .faulted, faultCause := some f }

/-- `raise F` (R210): control goes nowhere, so fault entry is the next state. There is no return (R212). -/
def raise (f : FaultCause) (s : State) : Result := .next (s.faultEntry f)

/-- The numeric code of `FAULT_CAUSE` (R25, R203). -/
def faultCode : Option FaultCause → Nat
  | none => 0
  | some .addressOutOfRange => 1
  | some .invalidWriteTarget => 2
  | some .unknownOpcode => 3
  | some .stackUnderflow => 4
  | some .divisionByZeroModulus => 5
  | some .fetchOutOfRange => 6

/-- `RUN_STATE <- Halted` (R180, R161). -/
def State.halt (s : State) : State := { s with runState := .halted }

/-! ### Character output and input -/

/-- `Emit(c)`: append to `OUT_TRACE` (R227). -/
def State.emit (s : State) (c : Word) : State := { s with outTrace := s.outTrace ++ [c] }

/-- A code the channel still holds: a character of the line, or once its terminator (R220, first two cases); none
when the channel is exhausted, `IC_CUR > len(IC_BUF)` (R27). -/
def State.bufferedChar (s : State) : Option (Nat × State) :=
  match s.icBuf[s.icCur]? with
  | some c => some (c, { s with icCur := s.icCur + 1 })
  | none =>
    if s.icCur = s.icBuf.length then some (s.params.lineTerminatorCode, { s with icCur := s.icCur + 1 })
    else none

/-- `NextChar()` (R220): a buffered code, else the first line of `LINES` is loaded with the cursor at 0 and the same
rule applies once more; none when the channel is exhausted and `LINES` is empty, where the core waits (R172). -/
def State.nextChar (s : State) : Option (Nat × State) :=
  match s.bufferedChar with
  | some r => some r
  | none =>
    match s.lines with
    | [] => none
    | l :: rest => State.bufferedChar { s with icBuf := l, icCur := 0, lines := rest }

end Sys2Proof.Machine
end

