-- ==== Sys2Proof/Machine/Operands.lean ====
section
/-! DEFINITION. Operand resolution (30_encoding.md R67 to R73): the two resolutions and their use in an instruction,
which faults on the first operand that fails (R71). -/

namespace Sys2Proof.Machine

/-- `ResolveRead(o)`: a literal is its value, a register its content, an invalid word the fault
`AddressOutOfRange` (R68). -/
def resolveRead (s : State) : Operand → Except FaultCause Word
  | .lit v => .ok v
  | .reg i => .ok (s.reg i)
  | .invalid _ => .error .addressOutOfRange

/-- `ResolveWrite(o)`: a register reference is its index, a literal the fault `InvalidWriteTarget`, an invalid word
the fault `AddressOutOfRange` (R69). It reads no register. -/
def resolveWrite : Operand → Except FaultCause (Fin 8)
  | .lit _ => .error .invalidWriteTarget
  | .reg i => .ok i
  | .invalid _ => .error .addressOutOfRange

/-- Resolve a source operand and go on with its value, or raise its fault (R68, R71). -/
def withSource (s : State) (o : Operand) (k : Word → Result) : Result :=
  match resolveRead s o with
  | .ok v => k v
  | .error f => raise f s

/-- Resolve a destination operand and go on with its register index, or raise its fault (R69, R71). -/
def withDest (s : State) (o : Operand) (k : Fin 8 → Result) : Result :=
  match resolveWrite o with
  | .ok i => k i
  | .error f => raise f s

end Sys2Proof.Machine
end

