-- ==== Sys2Proof/Machine/CharIo.lean ====
section
/-! DEFINITION. `out`, `in` (46_io.md). -/

namespace Sys2Proof.Machine

/-- `out arg` (R170). -/
def execOut (arg : Operand) (s : State) : Result :=
  withSource s arg fun c =>
  .next ((s.emit c).advance 2)

/-- `in dest` (R171): the destination is resolved before the channel is touched; on an exhausted channel with no line
queued the core begins to wait, everything else unchanged (R172). -/
def execIn (dest : Operand) (s : State) : Result :=
  withDest s dest fun i =>
  match s.nextChar with
  | some (c, s') => .next ((s'.writeReg i c).advance 2)
  | none => .next { s with runState := .waitingInput }

end Sys2Proof.Machine
end

