-- ==== Sys2Proof/Machine/Fetch.lean ====
section
/-! DEFINITION. Instruction fetch: the procedure `Decode(pc)` of 30_encoding.md R65 with the fetch bound of
20_memory.md R50. -/

namespace Sys2Proof.Machine

/-- The `n` cells from address `a` on, in ascending order. -/
def Memory.cellsFrom (m : Memory) : Nat → Nat → List Cell
  | _, 0 => []
  | a, n + 1 => Memory.readCell m (BitVec.ofNat 15 a) :: Memory.cellsFrom m (a + 1) n

/-- `Decode(pc)` (R65): the bound of the opcode word, the opcode, the bound of the operand words, then the operand
words. It reads Memory and writes nothing. The last arm is never taken: `arity` knows the opcode and the words are
all there. -/
def fetch (s : State) : Except FaultCause Instr :=
  if 32767 < s.pc.toNat then .error .fetchOutOfRange
  else
    match arity (s.memRead (BitVec.ofNat 15 s.pc.toNat)) with
    | none => .error .unknownOpcode
    | some n =>
      if 32767 < s.pc.toNat + n then .error .fetchOutOfRange
      else
        match decode (Memory.cellsFrom s.mem s.pc.toNat (1 + n)) with
        | .ok (i, _) => .ok i
        | .error _ => .error .unknownOpcode

end Sys2Proof.Machine
end

