-- ==== Sys2Proof/Machine/Resume.lean ====
section
/-! DEFINITION. The end of a wait: a waiting `in` completes when a line is there (46_io.md R172, 60_exceptions.md
R225). -/

namespace Sys2Proof.Machine

/-- Complete the waiting `in` (R225 c): `pc` still holds its address, so it is fetched again and executed with
`RUN_STATE` back at `Running` (R172). With no line it still waits; at anything but an `in` with a register destination
the model stops (no run gets there; log entry 7). -/
def resumeIn (s : State) : Result :=
  match s.nextChar with
  | none => .fault .waitingForLine
  | some _ =>
    match fetch s with
    | .ok (.inp (.reg i)) => execIn (.reg i) { s with runState := .running }
    | _ => .fault .waitingElsewhere

end Sys2Proof.Machine
end

