-- ==== Sys2Proof/Machine/Boot.lean ====
section
/-! DEFINITION. The host's transactions (70_reset_and_hazards.md R242, R244): image load and patches, which only
`boot` uses, before the first step; delivery of a line; reading output and status. -/

namespace Sys2Proof.Machine

/-- Store cells at ascending addresses from `a`. -/
def Memory.storeCells : Memory → Nat → List Cell → Memory
  | m, _, [] => m
  | m, a, c :: cs => Memory.storeCells (Memory.writeCell m (BitVec.ofNat 15 a) c) (a + 1) cs

/-- Load an image (R56): its words at `base`, `base + 1`, ...; refused for an odd byte count or when it does not fit
(U11). `base` is the OPEN parameter `IMAGE_BASE` with its default (R3). -/
def loadImage (base : Nat := Config.imageBase) (bytes : List (BitVec 8)) (s : State) : Result :=
  match cellsOfBytes bytes with
  | none => .refused .imageOddBytes
  | some cs =>
    if 32768 < base + cs.length then .refused .imageTooLong
    else .next { s with mem := Memory.storeCells s.mem base cs }

/-- One patch (address, value) (R57): 0..32767 a memory cell, 32768..32775 a register, anything else refused (U12). -/
def applyPatch (address value : Nat) (s : State) : Result :=
  if address < 32768 then
    if value < 65536 then .next (s.memWrite (BitVec.ofNat 15 address) (BitVec.ofNat 16 value))
    else .refused .patchValue
  else if address < 32776 then .next (s.writeReg ⟨address % 8, Nat.mod_lt _ (by decide)⟩ value)
  else .refused .patchAddress

/-- The patches in list order (R57). -/
def applyPatches : List (Nat × Nat) → State → Result
  | [], s => .next s
  | (a, v) :: ps, s =>
    match applyPatch a v s with
    | .next s' => applyPatches ps s'
    | r => r

/-- The boot sequence (R242): reset, with the parameters of the run and the lines already queued; image load at
`IMAGE_BASE`, by default 0 (R3); patches. The core then steps from `pc` 0. -/
def boot (params : Params) (lines : List (List Nat)) (base : Nat := Config.imageBase) (image : List (BitVec 8))
    (patches : List (Nat × Nat)) : Result :=
  match loadImage base image { State.reset with params := params, lines := lines } with
  | .next s => applyPatches patches s
  | r => r

/-- The host delivers a line (R221): it goes to the end of `LINES`, and a waiting `in` completes (R225). -/
def deliverLine (line : List Nat) (s : State) : Result :=
  match s.runState with
  | .waitingInput => resumeIn { s with lines := s.lines ++ [line] }
  | _ => .next { s with lines := s.lines ++ [line] }

/-- The host reads the output (R244). -/
def readOutput (s : State) : List Word := s.outTrace

/-- The host reads the status: `RUN_STATE`, the code of `FAULT_CAUSE`, `pc` (R244). -/
def readStatus (s : State) : RunState × Nat × BitVec 16 := (s.runState, faultCode s.faultCause, s.pc)

end Sys2Proof.Machine
end

