-- ==== Sys2Proof/Machine/Alu.lean ====
section
/-! DEFINITION. `add`, `mult`, `mod`, `and`, `or`, `not` (43_alu.md): the exact result on natural numbers, which the
register write keeps modulo 32768 (R130, R137). -/

namespace Sys2Proof.Machine

/-- The shape of an instruction `dest a b` (R71): destination, then `a`, then `b`; then the result `f a b` is written
and `pc` advances by 4. -/
def threeOperand (f : Word → Word → Nat) (dest a b : Operand) (s : State) : Result :=
  withDest s dest fun i =>
  withSource s a fun x =>
  withSource s b fun y =>
  .next ((s.writeReg i (f x y)).advance 4)

/-- The exact sum (R131). -/
def aluAdd (a b : Word) : Nat := a.toNat + b.toNat

/-- The exact product (R132). -/
def aluMult (a b : Word) : Nat := a.toNat * b.toNat

/-- The remainder of unsigned division, for a divisor that is not 0 (R133). -/
def aluMod (a b : Word) : Nat := a.toNat % b.toNat

/-- Bitwise and of the 15 bits (R134). -/
def aluAnd (a b : Word) : Nat := (a &&& b).toNat

/-- Bitwise or of the 15 bits (R135). -/
def aluOr (a b : Word) : Nat := (a ||| b).toNat

/-- The 15-bit complement, `32767 - a` (R136). -/
def aluNot (a : Word) : Nat := 32767 - a.toNat

/-- `add dest a b` (R131). -/
def execAdd (dest a b : Operand) (s : State) : Result := threeOperand aluAdd dest a b s

/-- `mult dest a b` (R132). -/
def execMult (dest a b : Operand) (s : State) : Result := threeOperand aluMult dest a b s

/-- `mod dest a b` (R133): a zero divisor is a fault, examined after the operands. -/
def execMod (dest a b : Operand) (s : State) : Result :=
  withDest s dest fun i =>
  withSource s a fun x =>
  withSource s b fun y =>
  if y = 0 then raise .divisionByZeroModulus s
  else .next ((s.writeReg i (aluMod x y)).advance 4)

/-- `and dest a b` (R134). -/
def execAnd (dest a b : Operand) (s : State) : Result := threeOperand aluAnd dest a b s

/-- `or dest a b` (R135). -/
def execOr (dest a b : Operand) (s : State) : Result := threeOperand aluOr dest a b s

/-- `not dest a` (R136). -/
def execNot (dest a : Operand) (s : State) : Result :=
  withDest s dest fun i =>
  withSource s a fun x =>
  .next ((s.writeReg i (aluNot x)).advance 3)

end Sys2Proof.Machine
end

