-- ==== Sys2Proof/Machine/Flags.lean ====
section
/-! DEFINITION. The core has no status flags (10_state.md R28): a comparison answers the Word 1 or 0 in a register and
a conditional jump tests a Word against 0. These are those two conventions. -/

namespace Sys2Proof.Machine

/-- The result of a comparison: 1 or 0, never another value (R112). -/
def truthWord (b : Bool) : Nat := if b then 1 else 0

/-- The condition of `jt`: any Word but 0 is true (R121); `jf` takes its negation (R122). -/
abbrev condHolds (c : Word) : Prop := c ≠ 0

end Sys2Proof.Machine
end

