-- ==== Sys2Proof/Machine/Compare.lean ====
section
/-! DEFINITION. `eq`, `gt` (41_compare.md): unsigned comparison of the resolved Words (R112). -/

namespace Sys2Proof.Machine

/-- 1 if the Words are equal, else 0 (R110). -/
def cmpEq (a b : Word) : Nat := truthWord (a == b)

/-- 1 if the first Word is greater, else 0, unsigned (R111). -/
def cmpGt (a b : Word) : Nat := truthWord (decide (b.toNat < a.toNat))

/-- `eq dest a b` (R110). -/
def execEq (dest a b : Operand) (s : State) : Result := threeOperand cmpEq dest a b s

/-- `gt dest a b` (R111). -/
def execGt (dest a b : Operand) (s : State) : Result := threeOperand cmpGt dest a b s

end Sys2Proof.Machine
end

