-- ==== Sys2Proof/Machine/HaltNoop.lean ====
section
/-! DEFINITION. `halt`, `noop` (47_halt_noop.md). -/

namespace Sys2Proof.Machine

/-- `halt` (R180): `RUN_STATE` becomes `Halted` and `pc` takes the default advance. -/
def execHalt (s : State) : Result := .next (s.halt.advance 1)

/-- `noop` (R181). -/
def execNoop (s : State) : Result := .next (s.advance 1)

end Sys2Proof.Machine
end

