-- ==== Sys2Proof/Machine/Jump.lean ====
section
/-! DEFINITION. `jmp`, `jt`, `jf` (42_jump.md). -/

namespace Sys2Proof.Machine

/-- Resolve a target and set `pc` to it, with no default advance (R18, R123). -/
def jumpTo (target : Operand) (s : State) : Result :=
  withSource s target fun t => .next (s.setPc (zext16 t))

/-- `jmp target` (R120). -/
def execJmp (target : Operand) (s : State) : Result := jumpTo target s

/-- `jt cond target` (R121): the target is resolved only when the jump is taken (R72). -/
def execJt (cond target : Operand) (s : State) : Result :=
  withSource s cond fun c => if condHolds c then jumpTo target s else .next (s.advance 3)

/-- `jf cond target` (R122): the target is resolved only when the jump is taken (R72). -/
def execJf (cond target : Operand) (s : State) : Result :=
  withSource s cond fun c => if condHolds c then .next (s.advance 3) else jumpTo target s

end Sys2Proof.Machine
end

