-- ==== Sys2Proof/Machine/MemoryAccess.lean ====
section
/-! DEFINITION. `rmem`, `wmem` (44_memory_access.md): the only two instructions that index Memory (20_memory.md R42). -/

namespace Sys2Proof.Machine

/-- `rmem dest src` (R150): the register receives the low 15 bits of the cell. -/
def execRmem (dest src : Operand) (s : State) : Result :=
  withDest s dest fun i =>
  withSource s src fun addr =>
  .next ((s.writeReg i (s.memRead addr).toNat).advance 3)

/-- `wmem dest src` (R151): both operands are read (R73). -/
def execWmem (dest src : Operand) (s : State) : Result :=
  withSource s dest fun addr =>
  withSource s src fun v =>
  .next ((s.memWrite addr (zext16 v)).advance 3)

end Sys2Proof.Machine
end

