-- ==== Sys2Proof/Machine/Move.lean ====
section
/-! DEFINITION. `set`, `push`, `pop` (40_move_stack.md). -/

namespace Sys2Proof.Machine

/-- `set dest src` (R101). -/
def execSet (dest src : Operand) (s : State) : Result :=
  withDest s dest fun i =>
  withSource s src fun v =>
  .next ((s.writeReg i v.toNat).advance 3)

/-- `push src` (R102). -/
def execPush (src : Operand) (s : State) : Result :=
  withSource s src fun v =>
  .next ((s.push (zext16 v)).advance 2)

/-- `pop dest` (R103): the operand is examined before the stack. -/
def execPop (dest : Operand) (s : State) : Result :=
  withDest s dest fun i =>
  match s.pop with
  | none => raise .stackUnderflow s
  | some (v, s') => .next ((s'.writeReg i v.toNat).advance 2)

end Sys2Proof.Machine
end

