-- ==== Sys2Proof/Machine/Subroutine.lean ====
section
/-! DEFINITION. `call`, `ret` (45_call_ret.md). -/

namespace Sys2Proof.Machine

/-- `call target` (R160): the target is resolved before the push; the value pushed is `pc + 2`. -/
def execCall (target : Operand) (s : State) : Result :=
  withSource s target fun t =>
  .next ((s.push (s.pc + 2)).setPc (zext16 t))

/-- `ret` (R161): on an empty stack `RET_EMPTY_POLICY` decides between the fault and the halt. -/
def execRet (s : State) : Result :=
  match s.pop with
  | some (v, s') => .next (s'.setPc v)
  | none =>
    match s.params.retEmptyPolicy with
    | .fault => raise .stackUnderflow s
    | .halt => .next s.halt

end Sys2Proof.Machine
end

