-- ==== Sys2Proof/Machine/Dispatch.lean ====
section
/-! DEFINITION. The meaning of each instruction, one arm a constructor. -/

namespace Sys2Proof.Machine

def exec (i : Instr) (s : State) : Host.Outcome State Fault Refusal :=
  match i with
  | .halt => Sys2Proof.Machine.execHalt s
  | .set dest src => Sys2Proof.Machine.execSet dest src s
  | .push src => Sys2Proof.Machine.execPush src s
  | .pop dest => Sys2Proof.Machine.execPop dest s
  | .eq dest a b => Sys2Proof.Machine.execEq dest a b s
  | .gt dest a b => Sys2Proof.Machine.execGt dest a b s
  | .jmp target => Sys2Proof.Machine.execJmp target s
  | .jt cond target => Sys2Proof.Machine.execJt cond target s
  | .jf cond target => Sys2Proof.Machine.execJf cond target s
  | .add dest a b => Sys2Proof.Machine.execAdd dest a b s
  | .mult dest a b => Sys2Proof.Machine.execMult dest a b s
  | .mod dest a b => Sys2Proof.Machine.execMod dest a b s
  | .and dest a b => Sys2Proof.Machine.execAnd dest a b s
  | .or dest a b => Sys2Proof.Machine.execOr dest a b s
  | .not dest a => Sys2Proof.Machine.execNot dest a s
  | .rmem dest src => Sys2Proof.Machine.execRmem dest src s
  | .wmem dest src => Sys2Proof.Machine.execWmem dest src s
  | .call target => Sys2Proof.Machine.execCall target s
  | .ret => Sys2Proof.Machine.execRet s
  | .out arg => Sys2Proof.Machine.execOut arg s
  | .inp dest => Sys2Proof.Machine.execIn dest s
  | .noop => Sys2Proof.Machine.execNoop s

end Sys2Proof.Machine
end

