-- ==== Sys2Proof/Machine/Step.lean ====
section
/-! DEFINITION. One step of the core (60_exceptions.md R200). -/

namespace Sys2Proof.Machine

/-- One step (R200): in `Running` the instruction at `pc` is fetched and executed, or its fetch fault is entered
(R210). In `WaitingInput` only a queued line goes on (R225). `Halted` and `Faulted` are terminal (R202): no step. -/
def step (s : State) : Host.Outcome State Fault Refusal :=
  match s.runState with
  | .running =>
    match fetch s with
    | .ok i => exec i s
    | .error f => raise f s
  | .waitingInput => resumeIn s
  | .halted => .fault .coreHalted
  | .faulted => .fault .coreFaulted

/-- `s` with the instruction whose bits are `w` (low `nbits` bits, the rest 0) in the four cells from `pc` on, as far
as Memory goes, and the core `Running`, so that the next step fetches it. It stands for the host's image load (R242;
log entry 3). -/
def State.withFetchWord (s : State) (nbits w : Nat) : State :=
  { s with
    mem := Memory.storeCells s.mem s.pc.toNat ((cellsOfWord 4 (w % 2 ^ nbits)).take (32768 - s.pc.toNat))
    runState := .running
    faultCause := none }

end Sys2Proof.Machine
end

