-- ==== Sys2Proof/Machine/Assembly.lean ====
section
/-! DEFINITION. The assembly text of an instruction (30_encoding.md R78 to R82), as lists of characters: rendering an
instruction, the listing line, and text to words, the inverse of rendering (R82). No step uses it. -/

namespace Sys2Proof.Assembly

/-- The mnemonics in opcode order (R78). -/
def mnemonics : List (List Char) :=
  [['h','a','l','t'], ['s','e','t'], ['p','u','s','h'], ['p','o','p'], ['e','q'], ['g','t'], ['j','m','p'], ['j','t'],
   ['j','f'], ['a','d','d'], ['m','u','l','t']]
  ++ [['m','o','d'], ['a','n','d'], ['o','r'], ['n','o','t'], ['r','m','e','m'], ['w','m','e','m'], ['c','a','l','l'],
   ['r','e','t'], ['o','u','t'], ['i','n'], ['n','o','o','p']]

/-- The mnemonic of an instruction (R78). -/
def mnemonic (i : Instr) : List Char := mnemonics.getD i.opcode []

/-- The character of a decimal digit. -/
def digitChar (d : Nat) : Char := Char.ofNat (48 + d)

/-- The value of a decimal digit. -/
def digitValue (c : Char) : Option Nat := if 48 ≤ c.toNat ∧ c.toNat ≤ 57 then some (c.toNat - 48) else none

/-- A number in decimal with at most `fuel + 1` digits, no leading zeros. -/
def decimalDigits : Nat → Nat → List Char
  | 0, n => [digitChar (n % 10)]
  | fuel + 1, n => if n < 10 then [digitChar n] else decimalDigits fuel (n / 10) ++ [digitChar (n % 10)]

/-- A number below 100000 in decimal. -/
def decimal (n : Nat) : List Char := decimalDigits 4 n

/-- The value of a row of decimal digits after a value `acc`; none where a character is no digit. -/
def readDigits : Nat → List Char → Option Nat
  | acc, [] => some acc
  | acc, c :: cs =>
    match digitValue c with
    | some d => readDigits (10 * acc + d) cs
    | none => none

/-- The value of a decimal number: at least one digit. -/
def readDecimal : List Char → Option Nat
  | [] => none
  | cs => readDigits 0 cs

/-- Operand text (R79): a literal in decimal, a register as `r` and its index; an invalid word has none. -/
def operandText : Operand → Option (List Char)
  | .lit v => some (decimal v.toNat)
  | .reg i => some ('r' :: decimal i.val)
  | .invalid _ => none

/-- The operand word an operand text names (R82): a decimal number in 0..32767, or `r` and an index in 0..7. -/
def operandWord : List Char → Option Cell
  | 'r' :: cs =>
    match readDecimal cs with
    | some i => if i < 8 then some (BitVec.ofNat 16 (32768 + i)) else none
    | none => none
  | cs =>
    match readDecimal cs with
    | some n => if n < 32768 then some (BitVec.ofNat 16 n) else none
    | none => none

/-- All of a list of optional values, or none. -/
def allSome {α : Type} : List (Option α) → Option (List α)
  | [] => some []
  | none :: _ => none
  | some a :: rest => (allSome rest).map (a :: ·)

/-- Words separated by single spaces (R78). -/
def spaced : List (List Char) → List Char
  | [] => []
  | [w] => w
  | w :: ws => w ++ ' ' :: spaced ws

/-- The pieces of a text between its spaces. -/
def pieces : List Char → List (List Char)
  | [] => [[]]
  | c :: cs =>
    if c = ' ' then [] :: pieces cs
    else
      match pieces cs with
      | [] => [[c]]
      | w :: ws => (c :: w) :: ws

/-- The text of an instruction: its mnemonic, then its operands in operand-word order, separated by spaces (R78);
none when an operand has no text. -/
def instrText (i : Instr) : Option (List Char) :=
  (allSome (i.operands.map operandText)).map fun ops => spaced (mnemonic i :: ops)

/-- The listing line (R80): the address in five digits, padded with zeros, a space, the instruction's text. -/
def listingLine (address : Word) (i : Instr) : Option (List Char) :=
  (instrText i).map fun t =>
    let d := decimal address.toNat
    List.replicate (5 - d.length) '0' ++ d ++ ' ' :: t

/-- Text to words (R82): the mnemonic gives the opcode word and the operand texts, as many as its arity, the operand
words. -/
def assemble (text : List Char) : Option (List Cell) :=
  match pieces text with
  | [] => none
  | m :: ops =>
    match mnemonics.findIdx? (· == m) with
    | none => none
    | some op =>
      if arityTable[op]? = some ops.length then
        (allSome (ops.map operandWord)).map fun ws => BitVec.ofNat 16 op :: ws
      else none

end Sys2Proof.Assembly
end

