-- ==== Sys2Proof/Safety.lean ====
section
/-! DEFINITION. How a run ends (70_reset_and_hazards.md R246), the invariant of the machine's states, and the runs a
host can make (R242, R244, R245): the terms claims use. -/

namespace Sys2Proof.Machine

/-- A run has ended normally exactly when `RUN_STATE` is `Halted` (R246). -/
def State.endedNormally (s : State) : Prop := s.runState = .halted

/-- A run has ended abnormally exactly when `RUN_STATE` is `Faulted` (R246). -/
def State.endedAbnormally (s : State) : Prop := s.runState = .faulted

/-- The Input Channel is exhausted: `IC_CUR > len(IC_BUF)` (R27). -/
def State.exhausted (s : State) : Prop := s.icBuf.length < s.icCur

/-- What every state of a run satisfies. -/
structure State.Inv (s : State) : Prop where
  /-- `pc` never holds a value above 32768 (R16). -/
  pcInRange : s.pc.toNat ≤ 32768
  /-- Every stack entry is at most 32768 (R20, R161). -/
  stackInRange : ∀ v ∈ s.stack, v.toNat ≤ 32768
  /-- Memory is in its canonical form. -/
  memCanonical : Memory.wf s.mem
  /-- `FAULT_CAUSE` is `None` unless `RUN_STATE` is `Faulted` (R25), where it is a cause (R210). -/
  causeIffFaulted : s.faultCause ≠ none ↔ s.runState = .faulted
  /-- While the core waits, `pc` is at an `in` whose destination is a register (R171, R172). -/
  waitsAtIn : s.runState = .waitingInput → ∃ i, fetch s = .ok (.inp (.reg i))
  /-- While the core waits, the channel is exhausted and no line is queued (R172, R201). -/
  waitsForLine : s.runState = .waitingInput → s.exhausted ∧ s.lines = []

/-- The states a host can bring the core to: boot, then any order of steps and deliveries (R242, R244, R245). -/
inductive Reached : State → Prop where
  | boot {params lines base image patches s} : boot params lines base image patches = .next s → Reached s
  | step {s t} : Reached s → step s = .next t → Reached t
  | deliver {line s t} : Reached s → deliverLine line s = .next t → Reached t

end Sys2Proof.Machine
end

