-- ==== Sys2Proof/Certificates/Slice0/Obligations.lean ====
section
/-! DEFINITION. The statements for the provers, from the numbered rules of spec/. The definitions of the namespace
Claims are the terms they share. -/

open Sys2Proof Sys2Proof.Machine

namespace Sys2Proof.Claims

/-- The state a fault `f` leaves: `RUN_STATE` and `FAULT_CAUSE` written, every other piece of state as before
(R210; what the dead state holds is the spec's decision D9, R211). -/
abbrev faulted (s : State) (f : FaultCause) : State := { s with runState := .faulted, faultCause := some f }

/-- The destination operand of the twelve instructions that have one (R15, R70). -/
def destOf : Instr → Option Operand
  | .set d _ | .pop d | .eq d _ _ | .gt d _ _ | .add d _ _ | .mult d _ _ | .mod d _ _ | .and d _ _ | .or d _ _
  | .not d _ | .rmem d _ | .inp d => some d
  | .halt | .push _ | .jmp _ | .jt _ _ | .jf _ _ | .wmem _ _ | .call _ | .ret | .out _ | .noop => none

/-- The operands an instruction resolves with `ResolveRead` in a state, in order (R70): the target of `jt` and `jf`
only when the jump is taken (R72). -/
def readsOf (s : State) : Instr → List Operand
  | .set _ a | .push a | .jmp a | .not _ a | .rmem _ a | .call a | .out a => [a]
  | .eq _ a b | .gt _ a b | .add _ a b | .mult _ a b | .mod _ a b | .and _ a b | .or _ a b | .wmem a b => [a, b]
  | .jt c t => if resolveRead s c = .ok 0 then [c] else [c, t]
  | .jf c t => if resolveRead s c = .ok 0 then [c, t] else [c]
  | .halt | .pop _ | .ret | .inp _ | .noop => []

/-- An instruction `dest a b` writes the Word `f a b` to its destination and advances by 4; it faults on the first
operand, in the order o[0], o[1], o[2], that does not resolve. The five clauses are all its forms. -/
def ThreeOperandRule (mk : Operand → Operand → Operand → Instr) (f : Word → Word → Word) : Prop :=
  (∀ s i a b x y, resolveRead s a = .ok x → resolveRead s b = .ok y →
    exec (mk (.reg i) a b) s = .next { s with regs := s.regs.set i (f x y), pc := s.pc + 4 }) ∧
  (∀ s v a b, exec (mk (.lit v) a b) s = .next (faulted s .invalidWriteTarget)) ∧
  (∀ s c a b, exec (mk (.invalid c) a b) s = .next (faulted s .addressOutOfRange)) ∧
  (∀ s i c b, exec (mk (.reg i) (.invalid c) b) s = .next (faulted s .addressOutOfRange)) ∧
  (∀ s i a x c, resolveRead s a = .ok x →
    exec (mk (.reg i) a (.invalid c)) s = .next (faulted s .addressOutOfRange))

/-- An instruction `dest a` of three cells writes the Word `f s a` to its destination and advances by 3; it faults on
the first operand, in the order o[0], o[1], that does not resolve. The four clauses are all its forms. -/
def TwoOperandRule (mk : Operand → Operand → Instr) (f : State → Word → Word) : Prop :=
  (∀ s i a x, resolveRead s a = .ok x →
    exec (mk (.reg i) a) s = .next { s with regs := s.regs.set i (f s x), pc := s.pc + 3 }) ∧
  (∀ s v a, exec (mk (.lit v) a) s = .next (faulted s .invalidWriteTarget)) ∧
  (∀ s c a, exec (mk (.invalid c) a) s = .next (faulted s .addressOutOfRange)) ∧
  (∀ s i c, exec (mk (.reg i) (.invalid c)) s = .next (faulted s .addressOutOfRange))

/-- A conditional jump whose condition holds for the Words `p`: taken, `pc` is the target and the target operand must
resolve; not taken, `pc` advances by 3 whatever the target operand is (R72). -/
def ConditionalJumpRule (mk : Operand → Operand → Instr) (p : Word → Prop) : Prop :=
  (∀ s c x a t, resolveRead s c = .ok x → p x → resolveRead s a = .ok t →
    exec (mk c a) s = .next { s with pc := t.setWidth 16 }) ∧
  (∀ s c x a, resolveRead s c = .ok x → ¬ p x → exec (mk c a) s = .next { s with pc := s.pc + 3 }) ∧
  (∀ s r a, exec (mk (.invalid r) a) s = .next (faulted s .addressOutOfRange)) ∧
  (∀ s c x r, resolveRead s c = .ok x → p x → exec (mk c (.invalid r)) s = .next (faulted s .addressOutOfRange))

/-- Every byte of Memory reads as before. -/
def SameMemory (s t : State) : Prop := ∀ k, Memory.readByte t.mem k = Memory.readByte s.mem k

/-- The Input Channel and its queue of lines are as before. -/
def SameInput (s t : State) : Prop := t.icBuf = s.icBuf ∧ t.icCur = s.icCur ∧ t.lines = s.lines

/-- The status is as before, or a fault was entered. -/
def SameStatusOrFaulted (s t : State) : Prop :=
  (t.runState = s.runState ∧ t.faultCause = s.faultCause) ∨ (t.runState = .faulted ∧ t.faultCause ≠ none)

/-- `n` executions of `NextChar()` in a row: the codes they return and the state after them. -/
def takeCodes : Nat → State → Option (List Nat × State)
  | 0, s => some ([], s)
  | n + 1, s =>
    match s.nextChar with
    | none => none
    | some (c, s') =>
      match takeCodes n s' with
      | none => none
      | some (cs, u) => some (c :: cs, u)

end Sys2Proof.Claims

open Sys2Proof.Claims

/-! ### Encoding -/

/-- Words written out from the opcode map, one or more for each family, decode to their instructions (R61, R67, R74).
The cells are, in order, those of the vectors V1, V8, V20, V40, V60, V88, V100, V113, V120, V124 and V131; `in r7`,
which no vector has; the `halt` of S1; and those of V115. -/
def Obligations.SampleWordsDecode : Prop :=
  decode [1, 32768, 4] = .ok (.set (.reg 0) (.lit 4), []) ∧
  decode [2, 32769] = .ok (.push (.reg 1), []) ∧
  decode [4, 32770, 32768, 9] = .ok (.eq (.reg 2) (.reg 0) (.lit 9), []) ∧
  decode [6, 200] = .ok (.jmp (.lit 200), []) ∧
  decode [9, 32768, 32768, 32769] = .ok (.add (.reg 0) (.reg 0) (.reg 1), []) ∧
  decode [14, 32768, 0] = .ok (.not (.reg 0) (.lit 0), []) ∧
  decode [15, 32769, 0] = .ok (.rmem (.reg 1) (.lit 0), []) ∧
  decode [16, 100, 5] = .ok (.wmem (.lit 100) (.lit 5), []) ∧
  decode [17, 6] = .ok (.call (.lit 6), []) ∧
  decode [18] = .ok (.ret, []) ∧
  decode [19, 32768] = .ok (.out (.reg 0), []) ∧
  decode [20, 32775] = .ok (.inp (.reg 7), []) ∧
  decode [0] = .ok (.halt, []) ∧
  decode [16, 40000, 5] = .ok (.wmem (.invalid 40000) (.lit 5), [])

/-- Every operand word is in exactly one class, with the bit patterns of R67: bit 15 clear is the literal of bits
14..0; bit 15 set and bits 14..3 clear is the register of bits 2..0; all else is invalid and kept. -/
def Obligations.OperandClassByBits : Prop :=
  ∀ o : Cell,
    (o.getLsbD 15 = false → operandOf o = .lit (o.extractLsb' 0 15)) ∧
    (o.getLsbD 15 = true → o.extractLsb' 3 12 = 0 →
      ∃ i : Fin 8, operandOf o = .reg i ∧ i.val = (o.extractLsb' 0 3).toNat) ∧
    (o.getLsbD 15 = true → o.extractLsb' 3 12 ≠ 0 → operandOf o = .invalid o)

/-- `ResolveRead` and `ResolveWrite` on every raw operand word (R68, R69). -/
def Obligations.ResolutionOfRawOperands : Prop :=
  ∀ (s : State) (o : Cell),
    (o.toNat ≤ 32767 → resolveRead s (operandOf o) = .ok (BitVec.ofNat 15 o.toNat) ∧
      resolveWrite (operandOf o) = .error .invalidWriteTarget) ∧
    (∀ i : Fin 8, o.toNat = 32768 + i.val → resolveRead s (operandOf o) = .ok s.regs[i] ∧
      resolveWrite (operandOf o) = .ok i) ∧
    (32776 ≤ o.toNat → resolveRead s (operandOf o) = .error .addressOutOfRange ∧
      resolveWrite (operandOf o) = .error .addressOutOfRange)

/-- Decoding the encoding of a well-formed instruction, whatever follows it, gives the instruction back and what
follows: no bit of an operand is dropped. -/
def Obligations.DecodeOfEncode : Prop :=
  ∀ (i : Instr) (rest : List Cell), i.wf = true → decode (encode i ++ rest) = .ok (i, rest)

/-- What decodes is the encoding of a well-formed instruction: each word has one meaning. -/
def Obligations.EncodeOfDecode : Prop :=
  ∀ (cells rest : List Cell) (i : Instr), decode cells = .ok (i, rest) →
    i.wf = true ∧ encode i ++ rest = cells

/-- The arity of each opcode is that of the table of R63, written out here, and an instruction takes exactly that many
operand words after its opcode word; an opcode word above 21 has no instruction. -/
def Obligations.ArityTableFixesLength : Prop :=
  ∀ (op : Cell) (ops : List Cell),
    (21 < op.toNat → decode (op :: ops) = .error (.unknownOpcode op)) ∧
    ∀ n, [0, 2, 1, 1, 3, 3, 1, 2, 2, 3, 3, 3, 3, 3, 2, 2, 2, 1, 0, 1, 1, 0][op.toNat]? = some n →
      (ops.length < n → decode (op :: ops) = .error (.operandMissing op)) ∧
      (n ≤ ops.length → ∃ i, decode (op :: ops) = .ok (i, ops.drop n) ∧ i.opcode = op.toNat ∧
        i.operands = (ops.take n).map operandOf)

/-- A fetch that succeeds gives the well-formed instruction whose cells stand at `pc`, all inside Memory (R60, R65). -/
def Obligations.FetchedInstructionStandsAtPc : Prop :=
  ∀ (s : State) (i : Instr), fetch s = .ok i →
    i.wf = true ∧ s.pc.toNat + (1 + i.operands.length) ≤ 32768 ∧
    ∀ k (h : k < (encode i).length), s.memRead (BitVec.ofNat 15 (s.pc.toNat + k)) = (encode i)[k]

/-- The faults of a fetch: `FetchOutOfRange` exactly when the opcode word or an operand word of a known opcode would
lie past the last cell, `UnknownOpcode` exactly when the opcode word is in 22..65535, and no other (R50, R65, R206,
R209). -/
def Obligations.FetchFaultsExactly : Prop :=
  ∀ s : State,
    (fetch s = .error .fetchOutOfRange ↔ 32767 < s.pc.toNat ∨
      ∃ n, arity (s.memRead (BitVec.ofNat 15 s.pc.toNat)) = some n ∧ 32767 < s.pc.toNat + n) ∧
    (fetch s = .error .unknownOpcode ↔
      s.pc.toNat ≤ 32767 ∧ 21 < (s.memRead (BitVec.ofNat 15 s.pc.toNat)).toNat) ∧
    ∀ f, fetch s = .error f → f = .fetchOutOfRange ∨ f = .unknownOpcode

/-- An instruction with no invalid operand has an assembly text, and that text gives its words back (R78, R79, R82). -/
def Obligations.AssemblyTextGivesWordsBack : Prop :=
  ∀ i : Instr, (∀ c, Operand.invalid c ∉ i.operands) →
    ∃ text, Assembly.instrText i = some text ∧ Assembly.assemble text = some (encode i)

/-! ### The step -/

/-- A step runs the decoded instruction: when the cells at `pc` are the encoding of a well-formed instruction that
lies inside Memory and the core is `Running`, the step is its execution in that state; and a fetch fault is entered,
with nothing else changed (R200, R210). -/
def Obligations.StepRunsTheInstructionAtPc : Prop :=
  (∀ (s : State) (i : Instr), s.runState = .running → i.wf = true →
    s.pc.toNat + (1 + i.operands.length) ≤ 32768 →
    (∀ k (h : k < (encode i).length), s.memRead (BitVec.ofNat 15 (s.pc.toNat + k)) = (encode i)[k]) →
    step s = exec i s) ∧
  (∀ (s : State) (f : FaultCause), s.runState = .running → fetch s = .error f → step s = .next (faulted s f))

/-- `Halted` and `Faulted` are terminal: no step is enabled, and a line the host delivers is only queued; a core that
waits with no line has no step either (R202, R172, R221). -/
def Obligations.TerminalStatesDoNothing : Prop :=
  (∀ s : State, s.runState = .halted → step s = .fault .coreHalted) ∧
  (∀ s : State, s.runState = .faulted → step s = .fault .coreFaulted) ∧
  (∀ (s : State) (l : List Nat), s.runState = .halted ∨ s.runState = .faulted →
    deliverLine l s = .next { s with lines := s.lines ++ [l] }) ∧
  (∀ s : State, s.runState = .waitingInput → s.exhausted → s.lines = [] → step s = .fault .waitingForLine)

/-- Every instruction answers a next state in every state: it completes, enters a fault, or waits (R200). -/
def Obligations.EveryInstructionAnswers : Prop := ∀ (i : Instr) (s : State), ∃ t, exec i s = .next t

/-- The transitions of `RUN_STATE` are those of R201 and no others, whether the core makes a step or the host delivers
a line. That a `WaitingInput` core with a code at hand (a line queued, in no state of a run) goes on in a step is log
entry 6 (DEDUCED); R201 has that transition for the delivery of a line. -/
def Obligations.RunStateTransitions : Prop :=
  (∀ s t : State, step s = .next t →
    (s.runState = .running ∧
      ((t.runState = .running ∧ fetch s ≠ .ok .halt) ∨ (∃ f, t = faulted s f) ∨
        (t.runState = .halted ∧ (fetch s = .ok .halt ∨
          fetch s = .ok .ret ∧ s.stack = [] ∧ s.params.retEmptyPolicy = .halt)) ∨
        (t = { s with runState := .waitingInput } ∧ (∃ r, fetch s = .ok (.inp (.reg r))) ∧
          s.exhausted ∧ s.lines = []))) ∨
    (s.runState = .waitingInput ∧ t.runState = .running ∧ (∃ r, fetch s = .ok (.inp (.reg r))) ∧
      ¬ (s.exhausted ∧ s.lines = []))) ∧
  (∀ (s t : State) (line : List Nat), deliverLine line s = .next t →
    (s.runState ≠ .waitingInput ∧ t.runState = s.runState) ∨
    (s.runState = .waitingInput ∧ t.runState = .running ∧ ∃ r, fetch s = .ok (.inp (.reg r))))

/-! ### Faults -/

/-- Faults are precise: an instruction of a `Running` core that ends `Faulted` has changed nothing but `RUN_STATE` and
`FAULT_CAUSE` (R210, R211). -/
def Obligations.FaultsArePrecise : Prop :=
  ∀ (i : Instr) (s t : State), s.runState = .running → exec i s = .next t → t.runState = .faulted →
    ∃ f, t = { s with runState := .faulted, faultCause := some f }

/-- An instruction of a `Running` core faults with `InvalidWriteTarget` exactly when its destination operand is a
literal, whatever its other operands and the stack are: never `wmem` (R205, R213). -/
def Obligations.InvalidWriteTargetExactly : Prop :=
  ∀ (i : Instr) (s : State), s.runState = .running →
    (exec i s = .next (faulted s .invalidWriteTarget) ↔ ∃ v, destOf i = some (.lit v))

/-- An instruction of a `Running` core faults with `AddressOutOfRange` exactly when its destination is no literal and
its destination or an operand it reads is invalid; an operand it does not resolve is not examined (R204, R72, R213). -/
def Obligations.AddressOutOfRangeExactly : Prop :=
  ∀ (i : Instr) (s : State), s.runState = .running →
    (exec i s = .next (faulted s .addressOutOfRange) ↔
      (∀ v, destOf i ≠ some (.lit v)) ∧
      ((∃ c, destOf i = some (.invalid c)) ∨ ∃ c, Operand.invalid c ∈ readsOf s i))

/-- The execution faults, after the operand faults: `StackUnderflow` exactly for `pop` with a register destination and
`ret` under the policy `fault`, on an empty stack; `DivisionByZeroModulus` exactly for `mod` with all operands
resolved and divisor 0; the two faults of the fetch never (R207, R208, R213). -/
def Obligations.ExecutionFaultsExactly : Prop :=
  ∀ (i : Instr) (s : State), s.runState = .running →
    (exec i s = .next (faulted s .stackUnderflow) ↔ s.stack = [] ∧
      ((∃ r, i = .pop (.reg r)) ∨ (i = .ret ∧ s.params.retEmptyPolicy = .fault))) ∧
    (exec i s = .next (faulted s .divisionByZeroModulus) ↔
      ∃ r a b x, i = .mod (.reg r) a b ∧ resolveRead s a = .ok x ∧ resolveRead s b = .ok 0) ∧
    exec i s ≠ .next (faulted s .unknownOpcode) ∧ exec i s ≠ .next (faulted s .fetchOutOfRange)

/-! ### The instructions -/

/-- `set` (R101). -/
def Obligations.SetCopiesItsSource : Prop := TwoOperandRule .set (fun _ v => v)

/-- `push` (R102). -/
def Obligations.PushAppendsTheWord : Prop :=
  (∀ s a v, resolveRead s a = .ok v →
    exec (.push a) s = .next { s with stack := s.stack ++ [v.setWidth 16], pc := s.pc + 2 }) ∧
  (∀ s c, exec (.push (.invalid c)) s = .next (faulted s .addressOutOfRange))

/-- `pop` (R103): the low 15 bits of the top entry, so 0 for the entry 32768 (an inference of the spec from R14); the
operand is examined before the stack. -/
def Obligations.PopTakesTheTop : Prop :=
  (∀ s r below top, s.stack = below ++ [top] → exec (.pop (.reg r)) s =
    .next { s with regs := s.regs.set r (BitVec.ofNat 15 (top.toNat % 32768)), stack := below, pc := s.pc + 2 }) ∧
  (∀ s r, s.stack = [] → exec (.pop (.reg r)) s = .next (faulted s .stackUnderflow)) ∧
  (∀ s v, exec (.pop (.lit v)) s = .next (faulted s .invalidWriteTarget)) ∧
  (∀ s c, exec (.pop (.invalid c)) s = .next (faulted s .addressOutOfRange))

/-- `eq` and `gt` write the Word 1 or 0, comparing resolved Words as unsigned numbers (R110, R111, R112). -/
def Obligations.ComparesWriteOneOrZero : Prop :=
  ThreeOperandRule .eq (fun a b => if a.toNat = b.toNat then 1 else 0) ∧
  ThreeOperandRule .gt (fun a b => if a.toNat > b.toNat then 1 else 0)

/-- `jmp` (R120). -/
def Obligations.JmpGoesToItsTarget : Prop :=
  (∀ s a t, resolveRead s a = .ok t → exec (.jmp a) s = .next { s with pc := t.setWidth 16 }) ∧
  (∀ s c, exec (.jmp (.invalid c)) s = .next (faulted s .addressOutOfRange))

/-- `jt` jumps when its condition is not 0, `jf` when it is 0 (R121, R122). -/
def Obligations.ConditionalJumps : Prop :=
  ConditionalJumpRule .jt (fun c => c ≠ 0) ∧ ConditionalJumpRule .jf (fun c => c = 0)

/-- `add` and `mult`: the exact sum and product modulo 32768 (R130, R131, R132). -/
def Obligations.AddAndMultModulo32768 : Prop :=
  ThreeOperandRule .add (fun a b => BitVec.ofNat 15 ((a.toNat + b.toNat) % 32768)) ∧
  ThreeOperandRule .mult (fun a b => BitVec.ofNat 15 ((a.toNat * b.toNat) % 32768))

/-- `mod`: the remainder for a divisor that is not 0, the fault for one that is, after the operands (R133). -/
def Obligations.ModIsTheRemainder : Prop :=
  (∀ s i a b x y, resolveRead s a = .ok x → resolveRead s b = .ok y → y.toNat ≠ 0 →
    ∃ r : Word, (∃ q, x.toNat = q * y.toNat + r.toNat) ∧ r.toNat < y.toNat ∧
      exec (.mod (.reg i) a b) s = .next { s with regs := s.regs.set i r, pc := s.pc + 4 }) ∧
  (∀ s i a b x y, resolveRead s a = .ok x → resolveRead s b = .ok y → y.toNat = 0 →
    exec (.mod (.reg i) a b) s = .next (faulted s .divisionByZeroModulus)) ∧
  (∀ s v a b, exec (.mod (.lit v) a b) s = .next (faulted s .invalidWriteTarget)) ∧
  (∀ s c a b, exec (.mod (.invalid c) a b) s = .next (faulted s .addressOutOfRange)) ∧
  (∀ s i c b, exec (.mod (.reg i) (.invalid c) b) s = .next (faulted s .addressOutOfRange)) ∧
  (∀ s i a x c, resolveRead s a = .ok x →
    exec (.mod (.reg i) a (.invalid c)) s = .next (faulted s .addressOutOfRange))

/-- `and`, `or`, `not` on the 15 bits of a Word; the complement is `a XOR 0x7FFF`, which is `32767 - a` (R134, R135,
R136). -/
def Obligations.LogicOnFifteenBits : Prop :=
  ThreeOperandRule .and (fun a b => a &&& b) ∧ ThreeOperandRule .or (fun a b => a ||| b) ∧
  TwoOperandRule .not (fun _ a => a ^^^ 0x7FFF#15) ∧
  ∀ a : Word, (a ^^^ 0x7FFF#15).toNat = 32767 - a.toNat

/-- `rmem` loads the low 15 bits of the cell its source addresses (R150). -/
def Obligations.RmemLoadsTheCell : Prop :=
  TwoOperandRule .rmem (fun s addr => BitVec.ofNat 15 ((s.memRead addr).toNat % 32768))

/-- `wmem` stores a Word, bit 15 clear, in the cell its first operand addresses, and changes no other cell, no
register and nothing else but `pc`; a literal first operand is the address itself (R151). -/
def Obligations.WmemStoresTheWord : Prop :=
  (∀ s d a m v, resolveRead s d = .ok m → resolveRead s a = .ok v →
    ∃ mem, exec (.wmem d a) s = .next { s with mem := mem, pc := s.pc + 3 } ∧
      Memory.readCell mem m = v.setWidth 16 ∧
      (∀ b : Word, b ≠ m → Memory.readCell mem b = s.memRead b) ∧
      ∀ k, k / 2 ≠ m.toNat → Memory.readByte mem k = Memory.readByte s.mem k) ∧
  (∀ s c a, exec (.wmem (.invalid c) a) s = .next (faulted s .addressOutOfRange)) ∧
  (∀ s d m c, resolveRead s d = .ok m → exec (.wmem d (.invalid c)) s = .next (faulted s .addressOutOfRange))

/-- `call` pushes the address of the next instruction in memory order and jumps; a target that does not resolve
pushes nothing (R160). -/
def Obligations.CallPushesTheReturnAddress : Prop :=
  (∀ s a t, resolveRead s a = .ok t →
    exec (.call a) s = .next { s with stack := s.stack ++ [s.pc + 2], pc := t.setWidth 16 }) ∧
  (∀ s c, exec (.call (.invalid c)) s = .next (faulted s .addressOutOfRange))

/-- `ret` pops an address and jumps to it, whatever pushed it; on an empty stack it is the fault or the halt that
`RET_EMPTY_POLICY` says, with nothing else changed (R161, R163). The default policy, `fault`, is the spec's own
decision D6 (log entry 4); both values are stated. -/
def Obligations.RetPopsOrFollowsThePolicy : Prop :=
  (∀ s below top, s.stack = below ++ [top] → exec .ret s = .next { s with stack := below, pc := top }) ∧
  (∀ s, s.stack = [] → s.params.retEmptyPolicy = .fault → exec .ret s = .next (faulted s .stackUnderflow)) ∧
  (∀ s, s.stack = [] → s.params.retEmptyPolicy = .halt → exec .ret s = .next { s with runState := .halted })

/-- `out` appends the character code to the output, and never waits (R170, R227). -/
def Obligations.OutEmitsTheCode : Prop :=
  (∀ s a c, resolveRead s a = .ok c →
    exec (.out a) s = .next { s with outTrace := s.outTrace ++ [c], pc := s.pc + 2 }) ∧
  (∀ s c, exec (.out (.invalid c)) s = .next (faulted s .addressOutOfRange))

/-- `in` takes one code: the next character of the line, after the last one the terminator, after that the first of
the next line (its terminator if it is empty); the register receives it modulo 32768. With no code and no line it
begins to wait, and nothing else changes. A bad destination faults before the channel is touched (R171, R172, R220,
R223). The value of the terminator is the parameter's (log entry 4). -/
def Obligations.InTakesOneCode : Prop :=
  (∀ (s : State) (r : Fin 8) (c : Nat), s.icBuf[s.icCur]? = some c → exec (.inp (.reg r)) s =
    .next { s with regs := s.regs.set r (BitVec.ofNat 15 (c % 32768)), icCur := s.icCur + 1, pc := s.pc + 2 }) ∧
  (∀ (s : State) (r : Fin 8), s.icCur = s.icBuf.length → exec (.inp (.reg r)) s =
    .next { s with regs := s.regs.set r (BitVec.ofNat 15 (s.params.lineTerminatorCode % 32768)),
                   icCur := s.icCur + 1, pc := s.pc + 2 }) ∧
  (∀ (s : State) (r : Fin 8) (c : Nat) (cs : List Nat) (rest : List (List Nat)), s.icBuf.length < s.icCur →
    s.lines = (c :: cs) :: rest → exec (.inp (.reg r)) s =
    .next { s with regs := s.regs.set r (BitVec.ofNat 15 (c % 32768)), icBuf := c :: cs, icCur := 1,
                   lines := rest, pc := s.pc + 2 }) ∧
  (∀ (s : State) (r : Fin 8) (rest : List (List Nat)), s.icBuf.length < s.icCur → s.lines = [] :: rest →
    exec (.inp (.reg r)) s =
    .next { s with regs := s.regs.set r (BitVec.ofNat 15 (s.params.lineTerminatorCode % 32768)), icBuf := [],
                   icCur := 1, lines := rest, pc := s.pc + 2 }) ∧
  (∀ (s : State) (r : Fin 8), s.icBuf.length < s.icCur → s.lines = [] →
    exec (.inp (.reg r)) s = .next { s with runState := .waitingInput }) ∧
  (∀ s v, exec (.inp (.lit v)) s = .next (faulted s .invalidWriteTarget)) ∧
  (∀ s c, exec (.inp (.invalid c)) s = .next (faulted s .addressOutOfRange))

/-- `halt` makes the core `Halted`, advances `pc` by 1 (the spec's decision D12) and changes nothing else (R180). -/
def Obligations.HaltStops : Prop :=
  ∀ s : State, exec .halt s = .next { s with runState := .halted, pc := s.pc + 1 }

/-- `noop` advances `pc` by 1 and changes nothing else (R181). -/
def Obligations.NoopOnlyAdvances : Prop := ∀ s : State, exec .noop s = .next { s with pc := s.pc + 1 }

/-- A `call` and the `ret` that takes its return address go on after the `call`, and a `pop` takes back the Word a
`push` left, with nothing else changed (R160, R161, R102, R103). -/
def Obligations.CallRetAndPushPopBalance : Prop :=
  (∀ s a v, resolveRead s a = .ok v →
    ∃ t, exec (.call a) s = .next t ∧ exec .ret t = .next { s with pc := s.pc + 2 }) ∧
  (∀ s a v r, resolveRead s a = .ok v →
    ∃ t, exec (.push a) s = .next t ∧
      exec (.pop (.reg r)) t = .next { s with regs := s.regs.set r v, pc := s.pc + 4 })

/-! ### Frames -/

/-- What the register instructions leave unchanged, in every form: every register but the destination, the stack,
every byte of Memory, the output, the input, the parameters; the status but for a fault entry. -/
def Obligations.RegisterInstructionFrame : Prop :=
  ∀ (i : Instr) (d a b : Operand) (s t : State),
    i ∈ [.set d a, .eq d a b, .gt d a b, .add d a b, .mult d a b, .mod d a b, .and d a b, .or d a b, .not d a,
      .rmem d a] →
    exec i s = .next t →
    (∀ r, d ≠ .reg r → t.reg r = s.reg r) ∧ t.stack = s.stack ∧ SameMemory s t ∧ t.outTrace = s.outTrace ∧
      SameInput s t ∧ t.params = s.params ∧ SameStatusOrFaulted s t

/-- What the jumps and `noop` and `halt` leave unchanged, in every form: every register, the stack, every byte of
Memory, the output, the input, the parameters; the status but for a fault entry, and but for `halt`. -/
def Obligations.ControlInstructionFrame : Prop :=
  ∀ (i : Instr) (c a : Operand) (s t : State), i ∈ [.jmp a, .jt c a, .jf c a, .noop, .halt] → exec i s = .next t →
    t.regs = s.regs ∧ t.stack = s.stack ∧ SameMemory s t ∧ t.outTrace = s.outTrace ∧ SameInput s t ∧
      t.params = s.params ∧
      (i ≠ .halt → SameStatusOrFaulted s t) ∧ (i = .halt → t.faultCause = s.faultCause)

/-- What the stack instructions leave unchanged, in every form: every register but the destination of `pop`, every
entry of the stack below the one pushed or popped, every byte of Memory, the output, the input, the parameters; the
status but for a fault entry, and but for `ret` on an empty stack. -/
def Obligations.StackInstructionFrame : Prop :=
  ∀ (i : Instr) (d a : Operand) (s t : State), i ∈ [.push a, .pop d, .call a, .ret] → exec i s = .next t →
    (∀ r, destOf i ≠ some (.reg r) → t.reg r = s.reg r) ∧
      (t.stack = s.stack ∨ (∃ v, t.stack = s.stack ++ [v]) ∨ ∃ v, s.stack = t.stack ++ [v]) ∧
      SameMemory s t ∧ t.outTrace = s.outTrace ∧ SameInput s t ∧ t.params = s.params ∧
      ((i = .ret ∧ s.stack = []) ∨ SameStatusOrFaulted s t)

/-- What `wmem` leaves unchanged, in every form: every byte of Memory outside the two bytes of the cell that
`ResolveRead` of its first operand addresses, and every other piece of state but `pc` and a fault entry; a form that
faults stores nothing. -/
def Obligations.WmemFrame : Prop :=
  ∀ (d a : Operand) (s t : State), exec (.wmem d a) s = .next t →
    (∀ m, resolveRead s d = .ok m → ∀ k, k ≠ 2 * m.toNat → k ≠ 2 * m.toNat + 1 →
      Memory.readByte t.mem k = Memory.readByte s.mem k) ∧
    (∀ f, resolveRead s d = .error f ∨ resolveRead s a = .error f → SameMemory s t) ∧
    t.regs = s.regs ∧ t.stack = s.stack ∧ t.outTrace = s.outTrace ∧ SameInput s t ∧ t.params = s.params ∧
    SameStatusOrFaulted s t

/-- What `out` and `in` leave unchanged, in every form: every register but the destination of `in`, the stack, every
byte of Memory, the parameters; `out` the input, `in` the output; the status but for a fault entry and, for `in`, the
wait, in which nothing else changes. -/
def Obligations.CharacterInstructionFrame : Prop :=
  (∀ (a : Operand) (s t : State), exec (.out a) s = .next t →
    t.regs = s.regs ∧ t.stack = s.stack ∧ SameMemory s t ∧ SameInput s t ∧ t.params = s.params ∧
      SameStatusOrFaulted s t ∧ (t.outTrace = s.outTrace ∨ ∃ c, t.outTrace = s.outTrace ++ [c])) ∧
  (∀ (d : Operand) (s t : State), exec (.inp d) s = .next t →
    (∀ r, d ≠ .reg r → t.reg r = s.reg r) ∧ t.stack = s.stack ∧ SameMemory s t ∧ t.outTrace = s.outTrace ∧
      t.params = s.params ∧ (t = { s with runState := .waitingInput } ∨ SameStatusOrFaulted s t))

/-! ### Registers, Memory, channels, host -/

/-- A register write stores the value modulo 32768, a read returns what is stored, and no other register changes
(R13, R14). -/
def Obligations.RegisterWriteThenRead : Prop :=
  ∀ (s : State) (i j : Fin 8) (v : Nat),
    ((s.writeReg i v).reg i).toNat = v % 32768 ∧ (j ≠ i → (s.writeReg i v).reg j = s.reg j) ∧
    s.writeReg i v = { s with regs := (s.writeReg i v).regs }

/-- `MemWrite` stores its Cell at its address, all 16 bits, and changes nothing else; the canonical form of Memory is
kept (R43, R44). -/
def Obligations.MemWriteThenRead : Prop :=
  ∀ (s : State) (a b : Word) (v : Cell),
    (s.memWrite a v).memRead a = v ∧ (b ≠ a → (s.memWrite a v).memRead b = s.memRead b) ∧
    s.memWrite a v = { s with mem := (s.memWrite a v).mem } ∧
    (Memory.wf s.mem → Memory.wf (s.memWrite a v).mem)

/-- A store is seen by the very next fetch, wherever in an instruction the stored cell lies (R54, the spec's decision
D25). Let `i` be any well-formed instruction and `p` an address from which its cells lie inside Memory, and let each of
them be what stands in Memory, but the Word `v` at the address `m`: the opcode word, an operand word, or none of them.
Then after a `wmem` of `v` to `m`, a fetch at `p` gives `i`. -/
def Obligations.StoreIsSeenByTheNextFetch : Prop :=
  ∀ (s : State) (d a : Operand) (m v p : Word) (i : Instr), resolveRead s d = .ok m → resolveRead s a = .ok v →
    i.wf = true → p.toNat + (1 + i.operands.length) ≤ 32768 →
    (∀ k (h : k < (encode i).length), (encode i)[k] =
      if p.toNat + k = m.toNat then v.setWidth 16 else s.memRead (BitVec.ofNat 15 (p.toNat + k))) →
    ∃ t, exec (.wmem d a) s = .next t ∧ fetch { t with pc := p.setWidth 16 } = .ok i

/-- A program never makes a cell with bit 15 set: one that has it after a step held the same value before (R45). -/
def Obligations.NoStepSetsBit15OfACell : Prop :=
  ∀ (s t : State) (a : Word), step s = .next t → 32768 ≤ (t.memRead a).toNat → t.memRead a = s.memRead a

/-- No step and no delivery of a line changes a register other than the destination of the instruction at `pc`, so at
most one register (R15); and every register holds a Word by its type (R12). -/
def Obligations.AtMostOneRegisterWritten : Prop :=
  ∀ (s t : State), (step s = .next t ∨ ∃ l, deliverLine l s = .next t) →
    ∀ r, t.reg r ≠ s.reg r → ∃ i, fetch s = .ok i ∧ destOf i = some (.reg r)

/-- The output is only ever appended to and no step reads it: a step with any output already made does the same and
appends the same (R26). -/
def Obligations.OutputIsAppendedNeverRead : Prop :=
  ∀ (s : State) (o : List Word), s.outTrace = [] →
    step { s with outTrace := o } =
      match step s with
      | .next t => .next { t with outTrace := o ++ t.outTrace }
      | r => r

/-- A line gives exactly its codes, in order, and then one terminator, before the channel is exhausted again (R222,
R223, R226). -/
def Obligations.LineGivesItsCodesThenTheTerminator : Prop :=
  ∀ (s : State) (l : List Nat) (rest : List (List Nat)), s.exhausted → s.lines = l :: rest →
    takeCodes (l.length + 1) s =
      some (l ++ [s.params.lineTerminatorCode], { s with icBuf := l, icCur := l.length + 1, lines := rest })

/-- Lines are taken from the front of the queue, one at a time, and only when the channel is exhausted (R221). -/
def Obligations.LinesAreTakenInOrder : Prop :=
  ∀ s t : State, step s = .next t →
    (t.lines = s.lines ∧ t.icBuf = s.icBuf ∧ s.icCur ≤ t.icCur ∧ t.icCur ≤ s.icCur + 1) ∨
    (s.exhausted ∧ s.lines = t.icBuf :: t.lines ∧ t.icCur = 1)

/-- An `in` on an exhausted channel with no line waits, `pc` still at it and nothing else changed; the delivery of a
line completes it: the register receives the line's first code (the terminator if the line is empty), `pc` advances by
2 and the core runs again (R172, R225). -/
def Obligations.DeliveryCompletesAWaitingIn : Prop :=
  ∀ (s : State) (r : Fin 8) (line : List Nat), s.runState = .running → fetch s = .ok (.inp (.reg r)) →
    s.exhausted → s.lines = [] →
    step s = .next { s with runState := .waitingInput } ∧
    deliverLine line { s with runState := .waitingInput } =
      .next { s with regs := s.regs.set r (BitVec.ofNat 15 (line.headD s.params.lineTerminatorCode % 32768)),
                     icBuf := line, icCur := 1, pc := s.pc + 2 }

/-- A line delivered while the core does not wait only goes to the end of the queue (R221). -/
def Obligations.DeliveryQueuesALine : Prop :=
  ∀ (s : State) (line : List Nat), s.runState ≠ .waitingInput →
    deliverLine line s = .next { s with lines := s.lines ++ [line] }

/-- The image load puts word `i`, `b[2i] + 256 * b[2i+1]`, in cell `base + i` and changes nothing else; it is refused
for an odd byte count or an image that does not fit (R56). -/
def Obligations.ImageLoad : Prop :=
  ∀ (base : Nat) (b : List (BitVec 8)) (s : State),
    (b.length % 2 = 1 → loadImage base b s = .refused .imageOddBytes) ∧
    (b.length % 2 = 0 → 32768 < base + b.length / 2 → loadImage base b s = .refused .imageTooLong) ∧
    (b.length % 2 = 0 → base + b.length / 2 ≤ 32768 →
      ∃ t, loadImage base b s = .next t ∧ t = { s with mem := t.mem } ∧
        (∀ i lo hi, b[2 * i]? = some lo → b[2 * i + 1]? = some hi →
          (t.memRead (BitVec.ofNat 15 (base + i))).toNat = lo.toNat + 256 * hi.toNat) ∧
        ∀ a : Word, a.toNat < base ∨ base + b.length / 2 ≤ a.toNat → t.memRead a = s.memRead a)

/-- The patches apply in list order, a later one after the earlier: no patches leave the state as it is, the last patch
acts on what the ones before it leave, and a list with a refused patch is refused as that patch is. 0..32767 writes a memory cell with a 16-bit value,
32768..32775 a register modulo 32768, any other address and a wider memory value are refused (R57). -/
def Obligations.PatchesApplyInOrder : Prop :=
  (∀ s : State, applyPatches [] s = .next s) ∧
  (∀ (ps : List (Nat × Nat)) (a v : Nat) (s t : State), applyPatches ps s = .next t →
    applyPatches (ps ++ [(a, v)]) s = applyPatch a v t) ∧
  (∀ (ps qs : List (Nat × Nat)) (s : State) (r : Refusal), applyPatches ps s = .refused r →
    applyPatches (ps ++ qs) s = .refused r) ∧
  (∀ (a v : Nat) (s : State), a < 32768 → v < 65536 →
    ∃ t, applyPatch a v s = .next t ∧ t = { s with mem := t.mem } ∧
      (t.memRead (BitVec.ofNat 15 a)).toNat = v ∧
      ∀ b : Word, b.toNat ≠ a → t.memRead b = s.memRead b) ∧
  (∀ (i : Fin 8) (v : Nat) (s : State), applyPatch (32768 + i.val) v s =
    .next { s with regs := s.regs.set i (BitVec.ofNat 15 (v % 32768)) }) ∧
  (∀ (a v : Nat) (s : State), 32776 ≤ a → applyPatch a v s = .refused .patchAddress) ∧
  (∀ (a v : Nat) (s : State), a < 32768 → 65536 ≤ v → applyPatch a v s = .refused .patchValue)

/-! ### Reset and the invariant -/

/-- What reset leaves (R30, R240); Memory lists nothing. The parameters are the defaults of R3 (log entry 4). -/
def Obligations.ResetState : Prop :=
  (∀ i, State.reset.reg i = 0) ∧ State.reset.pc = 0 ∧ State.reset.runState = .running ∧
    State.reset.faultCause = none ∧ State.reset.stack = [] ∧ State.reset.outTrace = [] ∧ State.reset.icBuf = [] ∧
    State.reset.icCur = 1 ∧ State.reset.lines = [] ∧ State.reset.mem = [] ∧
    State.reset.params = { retEmptyPolicy := .fault, lineTerminatorCode := 10 }

/-- The invariant holds after reset. -/
def Obligations.ResetSatisfiesTheInvariant : Prop := State.reset.Inv

/-- Every step keeps the invariant: `pc` and every stack entry stay at most 32768 (R16, R20), Memory keeps its
canonical form, `FAULT_CAUSE` is a cause exactly when the core is `Faulted` (R25), and a core that waits is at an `in`
with a register destination, its channel exhausted and no line queued (R172). -/
def Obligations.StepKeepsTheInvariant : Prop := ∀ s t : State, s.Inv → step s = .next t → t.Inv

/-- The delivery of a line keeps the invariant, and in a state that satisfies it a delivery always succeeds (R221,
R225). -/
def Obligations.DeliveryKeepsTheInvariant : Prop :=
  ∀ (s : State) (l : List Nat), s.Inv → ∃ t, deliverLine l s = .next t ∧ t.Inv

/-- Every state a host can bring the core to, by boot with any image and patches, steps and deliveries in any order,
satisfies the invariant; so a step stops only where the spec says no step is enabled: `Halted`, `Faulted`, or waiting
with no line (R202, R225, R242). -/
def Obligations.ReachedStatesStopOnlyWhereTheSpecSays : Prop :=
  ∀ s : State, Reached s → s.Inv ∧
    ((s.runState = .running ∧ ∃ t, step s = .next t) ∨ (s.runState = .halted ∧ step s = .fault .coreHalted) ∨
      (s.runState = .faulted ∧ step s = .fault .coreFaulted) ∨
      (s.runState = .waitingInput ∧ step s = .fault .waitingForLine))

/-- The boot sequence: reset, with the run's parameters and the lines already queued; the image at `IMAGE_BASE`; the
patches; and nothing else (R242). A host that names no `IMAGE_BASE` has word `i` of its image in cell `i`, with `pc` 0
and the core `Running`: the default 0 is the spec's decision D21 (R3). -/
def Obligations.BootResetsLoadsAndPatches : Prop :=
  (∀ (params : Params) (lines : List (List Nat)) (base : Nat) (b : List (BitVec 8)) (ps : List (Nat × Nat)) (t : State),
    boot params lines base b ps = .next t ↔
      ∃ u, loadImage base b { State.reset with params := params, lines := lines } = .next u ∧
        applyPatches ps u = .next t) ∧
  (∀ (params : Params) (lines : List (List Nat)) (b : List (BitVec 8)), b.length % 2 = 0 → b.length ≤ 65536 →
    ∃ t, boot params lines (image := b) (patches := []) = .next t ∧
      t = { State.reset with params := params, lines := lines, mem := t.mem } ∧
      ∀ i lo hi, b[2 * i]? = some lo → b[2 * i + 1]? = some hi →
        (t.memRead (BitVec.ofNat 15 i)).toNat = lo.toNat + 256 * hi.toNat)
end

