-- ==== Sys2Proof/Laws/Fetch.lean ====
section
/-! SUPPORT. What fetch reads. -/

namespace Sys2Proof.Machine

/-- Fetch reads `pc` and Memory only (R65). -/
theorem fetch_congr {s t : State} (hpc : s.pc = t.pc) (hmem : s.mem = t.mem) : fetch s = fetch t := by
  unfold fetch State.memRead
  rw [hpc, hmem]

theorem fetch_with_runState (s : State) (r : RunState) : fetch { s with runState := r } = fetch s :=
  fetch_congr rfl rfl

theorem fetch_with_lines (s : State) (ls : List (List Nat)) : fetch { s with lines := ls } = fetch s :=
  fetch_congr rfl rfl

theorem fetch_with_outTrace (s : State) (o : List Word) : fetch { s with outTrace := o } = fetch s :=
  fetch_congr rfl rfl

@[simp] theorem Memory.cellsFrom_length (m : Memory) (a n : Nat) : (Memory.cellsFrom m a n).length = n := by
  induction n generalizing a with
  | zero => rfl
  | succ n ih => simp [Memory.cellsFrom, ih]

/-- An opcode has an arity exactly when it is one of the 22 (R63, R75). -/
theorem arity_eq_none {op : Cell} : arity op = none ↔ 21 < op.toNat := by
  unfold arity
  rw [List.getElem?_eq_none_iff]
  show 22 ≤ op.toNat ↔ _
  omega

end Sys2Proof.Machine
end

