-- ==== Sys2Proof/Laws/State.lean ====
section
/-! SUPPORT. For each update of the state, what it makes of each field, of a register and of a memory cell: true by
definition, so that no proof unfolds an update. -/

namespace Sys2Proof.Machine

variable (s : State)

/-! ### `State.writeReg` (R14) -/

@[simp] theorem State.writeReg_regs (i : Fin 8) (v : Nat) : (s.writeReg i v).regs = s.regs.set i (BitVec.ofNat 15 v) := rfl
@[simp] theorem State.writeReg_pc (i : Fin 8) (v : Nat) : (s.writeReg i v).pc = s.pc := rfl
@[simp] theorem State.writeReg_stack (i : Fin 8) (v : Nat) : (s.writeReg i v).stack = s.stack := rfl
@[simp] theorem State.writeReg_mem (i : Fin 8) (v : Nat) : (s.writeReg i v).mem = s.mem := rfl
@[simp] theorem State.writeReg_runState (i : Fin 8) (v : Nat) : (s.writeReg i v).runState = s.runState := rfl
@[simp] theorem State.writeReg_faultCause (i : Fin 8) (v : Nat) : (s.writeReg i v).faultCause = s.faultCause := rfl
@[simp] theorem State.writeReg_outTrace (i : Fin 8) (v : Nat) : (s.writeReg i v).outTrace = s.outTrace := rfl
@[simp] theorem State.writeReg_icBuf (i : Fin 8) (v : Nat) : (s.writeReg i v).icBuf = s.icBuf := rfl
@[simp] theorem State.writeReg_icCur (i : Fin 8) (v : Nat) : (s.writeReg i v).icCur = s.icCur := rfl
@[simp] theorem State.writeReg_lines (i : Fin 8) (v : Nat) : (s.writeReg i v).lines = s.lines := rfl
@[simp] theorem State.writeReg_params (i : Fin 8) (v : Nat) : (s.writeReg i v).params = s.params := rfl

/-- A register reads the value last written to it, modulo 32768, and a write changes no other (R13, R14). -/
theorem State.reg_writeReg (i j : Fin 8) (v : Nat) :
    (s.writeReg i v).reg j = if i = j then BitVec.ofNat 15 v else s.reg j := by
  simp [State.reg, State.writeReg, Vector.getElem_set, Fin.ext_iff]

@[simp] theorem State.reg_writeReg_self (i : Fin 8) (v : Nat) : (s.writeReg i v).reg i = BitVec.ofNat 15 v := by
  simp [State.reg_writeReg]

theorem State.reg_writeReg_of_ne {i j : Fin 8} (h : i ≠ j) (v : Nat) : (s.writeReg i v).reg j = s.reg j := by
  simp [State.reg_writeReg, h]

@[simp] theorem State.memRead_writeReg (i : Fin 8) (v : Nat) (b : Word) : (s.writeReg i v).memRead b = s.memRead b := rfl

/-! ### `State.advance` (R18) -/

@[simp] theorem State.advance_regs (n : Nat) : (s.advance n).regs = s.regs := rfl
@[simp] theorem State.advance_pc (n : Nat) : (s.advance n).pc = s.pc + BitVec.ofNat 16 n := rfl
@[simp] theorem State.advance_stack (n : Nat) : (s.advance n).stack = s.stack := rfl
@[simp] theorem State.advance_mem (n : Nat) : (s.advance n).mem = s.mem := rfl
@[simp] theorem State.advance_runState (n : Nat) : (s.advance n).runState = s.runState := rfl
@[simp] theorem State.advance_faultCause (n : Nat) : (s.advance n).faultCause = s.faultCause := rfl
@[simp] theorem State.advance_outTrace (n : Nat) : (s.advance n).outTrace = s.outTrace := rfl
@[simp] theorem State.advance_icBuf (n : Nat) : (s.advance n).icBuf = s.icBuf := rfl
@[simp] theorem State.advance_icCur (n : Nat) : (s.advance n).icCur = s.icCur := rfl
@[simp] theorem State.advance_lines (n : Nat) : (s.advance n).lines = s.lines := rfl
@[simp] theorem State.advance_params (n : Nat) : (s.advance n).params = s.params := rfl
@[simp] theorem State.reg_advance (n : Nat) (j : Fin 8) : (s.advance n).reg j = s.reg j := rfl
@[simp] theorem State.memRead_advance (n : Nat) (b : Word) : (s.advance n).memRead b = s.memRead b := rfl

/-! ### `State.setPc` (R18) -/

@[simp] theorem State.setPc_regs (t : BitVec 16) : (s.setPc t).regs = s.regs := rfl
@[simp] theorem State.setPc_pc (t : BitVec 16) : (s.setPc t).pc = t := rfl
@[simp] theorem State.setPc_stack (t : BitVec 16) : (s.setPc t).stack = s.stack := rfl
@[simp] theorem State.setPc_mem (t : BitVec 16) : (s.setPc t).mem = s.mem := rfl
@[simp] theorem State.setPc_runState (t : BitVec 16) : (s.setPc t).runState = s.runState := rfl
@[simp] theorem State.setPc_faultCause (t : BitVec 16) : (s.setPc t).faultCause = s.faultCause := rfl
@[simp] theorem State.setPc_outTrace (t : BitVec 16) : (s.setPc t).outTrace = s.outTrace := rfl
@[simp] theorem State.setPc_icBuf (t : BitVec 16) : (s.setPc t).icBuf = s.icBuf := rfl
@[simp] theorem State.setPc_icCur (t : BitVec 16) : (s.setPc t).icCur = s.icCur := rfl
@[simp] theorem State.setPc_lines (t : BitVec 16) : (s.setPc t).lines = s.lines := rfl
@[simp] theorem State.setPc_params (t : BitVec 16) : (s.setPc t).params = s.params := rfl
@[simp] theorem State.reg_setPc (t : BitVec 16) (j : Fin 8) : (s.setPc t).reg j = s.reg j := rfl
@[simp] theorem State.memRead_setPc (t : BitVec 16) (b : Word) : (s.setPc t).memRead b = s.memRead b := rfl

/-! ### `State.push` (R21) -/

@[simp] theorem State.push_regs (v : Cell) : (s.push v).regs = s.regs := rfl
@[simp] theorem State.push_pc (v : Cell) : (s.push v).pc = s.pc := rfl
@[simp] theorem State.push_stack (v : Cell) : (s.push v).stack = s.stack ++ [v] := rfl
@[simp] theorem State.push_mem (v : Cell) : (s.push v).mem = s.mem := rfl
@[simp] theorem State.push_runState (v : Cell) : (s.push v).runState = s.runState := rfl
@[simp] theorem State.push_faultCause (v : Cell) : (s.push v).faultCause = s.faultCause := rfl
@[simp] theorem State.push_outTrace (v : Cell) : (s.push v).outTrace = s.outTrace := rfl
@[simp] theorem State.push_icBuf (v : Cell) : (s.push v).icBuf = s.icBuf := rfl
@[simp] theorem State.push_icCur (v : Cell) : (s.push v).icCur = s.icCur := rfl
@[simp] theorem State.push_lines (v : Cell) : (s.push v).lines = s.lines := rfl
@[simp] theorem State.push_params (v : Cell) : (s.push v).params = s.params := rfl
@[simp] theorem State.reg_push (v : Cell) (j : Fin 8) : (s.push v).reg j = s.reg j := rfl
@[simp] theorem State.memRead_push (v : Cell) (b : Word) : (s.push v).memRead b = s.memRead b := rfl

/-! ### `State.memWrite` (R44) -/

@[simp] theorem State.memWrite_regs (a : Word) (v : Cell) : (s.memWrite a v).regs = s.regs := rfl
@[simp] theorem State.memWrite_pc (a : Word) (v : Cell) : (s.memWrite a v).pc = s.pc := rfl
@[simp] theorem State.memWrite_stack (a : Word) (v : Cell) : (s.memWrite a v).stack = s.stack := rfl
@[simp] theorem State.memWrite_mem (a : Word) (v : Cell) : (s.memWrite a v).mem = Memory.writeCell s.mem a v := rfl
@[simp] theorem State.memWrite_runState (a : Word) (v : Cell) : (s.memWrite a v).runState = s.runState := rfl
@[simp] theorem State.memWrite_faultCause (a : Word) (v : Cell) : (s.memWrite a v).faultCause = s.faultCause := rfl
@[simp] theorem State.memWrite_outTrace (a : Word) (v : Cell) : (s.memWrite a v).outTrace = s.outTrace := rfl
@[simp] theorem State.memWrite_icBuf (a : Word) (v : Cell) : (s.memWrite a v).icBuf = s.icBuf := rfl
@[simp] theorem State.memWrite_icCur (a : Word) (v : Cell) : (s.memWrite a v).icCur = s.icCur := rfl
@[simp] theorem State.memWrite_lines (a : Word) (v : Cell) : (s.memWrite a v).lines = s.lines := rfl
@[simp] theorem State.memWrite_params (a : Word) (v : Cell) : (s.memWrite a v).params = s.params := rfl
@[simp] theorem State.reg_memWrite (a : Word) (v : Cell) (j : Fin 8) : (s.memWrite a v).reg j = s.reg j := rfl

/-! ### `State.faultEntry` (R210) -/

@[simp] theorem State.faultEntry_regs (f : FaultCause) : (s.faultEntry f).regs = s.regs := rfl
@[simp] theorem State.faultEntry_pc (f : FaultCause) : (s.faultEntry f).pc = s.pc := rfl
@[simp] theorem State.faultEntry_stack (f : FaultCause) : (s.faultEntry f).stack = s.stack := rfl
@[simp] theorem State.faultEntry_mem (f : FaultCause) : (s.faultEntry f).mem = s.mem := rfl
@[simp] theorem State.faultEntry_runState (f : FaultCause) : (s.faultEntry f).runState = .faulted := rfl
@[simp] theorem State.faultEntry_faultCause (f : FaultCause) : (s.faultEntry f).faultCause = some f := rfl
@[simp] theorem State.faultEntry_outTrace (f : FaultCause) : (s.faultEntry f).outTrace = s.outTrace := rfl
@[simp] theorem State.faultEntry_icBuf (f : FaultCause) : (s.faultEntry f).icBuf = s.icBuf := rfl
@[simp] theorem State.faultEntry_icCur (f : FaultCause) : (s.faultEntry f).icCur = s.icCur := rfl
@[simp] theorem State.faultEntry_lines (f : FaultCause) : (s.faultEntry f).lines = s.lines := rfl
@[simp] theorem State.faultEntry_params (f : FaultCause) : (s.faultEntry f).params = s.params := rfl
@[simp] theorem State.reg_faultEntry (f : FaultCause) (j : Fin 8) : (s.faultEntry f).reg j = s.reg j := rfl
@[simp] theorem State.memRead_faultEntry (f : FaultCause) (b : Word) : (s.faultEntry f).memRead b = s.memRead b := rfl

/-! ### `State.halt` (R180) -/

@[simp] theorem State.halt_regs : (s.halt).regs = s.regs := rfl
@[simp] theorem State.halt_pc : (s.halt).pc = s.pc := rfl
@[simp] theorem State.halt_stack : (s.halt).stack = s.stack := rfl
@[simp] theorem State.halt_mem : (s.halt).mem = s.mem := rfl
@[simp] theorem State.halt_runState : (s.halt).runState = .halted := rfl
@[simp] theorem State.halt_faultCause : (s.halt).faultCause = s.faultCause := rfl
@[simp] theorem State.halt_outTrace : (s.halt).outTrace = s.outTrace := rfl
@[simp] theorem State.halt_icBuf : (s.halt).icBuf = s.icBuf := rfl
@[simp] theorem State.halt_icCur : (s.halt).icCur = s.icCur := rfl
@[simp] theorem State.halt_lines : (s.halt).lines = s.lines := rfl
@[simp] theorem State.halt_params : (s.halt).params = s.params := rfl
@[simp] theorem State.reg_halt (j : Fin 8) : (s.halt).reg j = s.reg j := rfl
@[simp] theorem State.memRead_halt (b : Word) : (s.halt).memRead b = s.memRead b := rfl

/-! ### `State.emit` (R227) -/

@[simp] theorem State.emit_regs (c : Word) : (s.emit c).regs = s.regs := rfl
@[simp] theorem State.emit_pc (c : Word) : (s.emit c).pc = s.pc := rfl
@[simp] theorem State.emit_stack (c : Word) : (s.emit c).stack = s.stack := rfl
@[simp] theorem State.emit_mem (c : Word) : (s.emit c).mem = s.mem := rfl
@[simp] theorem State.emit_runState (c : Word) : (s.emit c).runState = s.runState := rfl
@[simp] theorem State.emit_faultCause (c : Word) : (s.emit c).faultCause = s.faultCause := rfl
@[simp] theorem State.emit_outTrace (c : Word) : (s.emit c).outTrace = s.outTrace ++ [c] := rfl
@[simp] theorem State.emit_icBuf (c : Word) : (s.emit c).icBuf = s.icBuf := rfl
@[simp] theorem State.emit_icCur (c : Word) : (s.emit c).icCur = s.icCur := rfl
@[simp] theorem State.emit_lines (c : Word) : (s.emit c).lines = s.lines := rfl
@[simp] theorem State.emit_params (c : Word) : (s.emit c).params = s.params := rfl
@[simp] theorem State.reg_emit (c : Word) (j : Fin 8) : (s.emit c).reg j = s.reg j := rfl
@[simp] theorem State.memRead_emit (c : Word) (b : Word) : (s.emit c).memRead b = s.memRead b := rfl

end Sys2Proof.Machine
end

