-- ==== Sys2Proof/Laws/Ops.lean ====
section
/-! SUPPORT. One lemma for each shared operation: everything it can do. -/

namespace Sys2Proof.Machine

@[simp] theorem resolveRead_lit (s : State) (v : Word) : resolveRead s (.lit v) = .ok v := rfl
@[simp] theorem resolveRead_reg (s : State) (i : Fin 8) : resolveRead s (.reg i) = .ok (s.reg i) := rfl
@[simp] theorem resolveRead_invalid (s : State) (c : Cell) :
    resolveRead s (.invalid c) = .error .addressOutOfRange := rfl
@[simp] theorem resolveWrite_lit (v : Word) : resolveWrite (.lit v) = .error .invalidWriteTarget := rfl
@[simp] theorem resolveWrite_reg (i : Fin 8) : resolveWrite (.reg i) = .ok i := rfl
@[simp] theorem resolveWrite_invalid (c : Cell) : resolveWrite (.invalid c) = .error .addressOutOfRange := rfl

/-- A destination resolves only if it is a register reference (R69). -/
theorem resolveWrite_ok {o : Operand} {i : Fin 8} (h : resolveWrite o = .ok i) : o = .reg i := by
  cases o <;> simp [resolveWrite] at h
  rw [h]

/-- A source reads the registers and nothing else of the state (R68). -/
theorem resolveRead_congr {s t : State} (h : s.regs = t.regs) (o : Operand) : resolveRead s o = resolveRead t o := by
  cases o <;> simp [resolveRead, State.reg, h]

theorem withSource_ok {s : State} {o : Operand} {v : Word} (h : resolveRead s o = .ok v) (k : Word → Result) :
    withSource s o k = k v := by
  simp [withSource, h]

theorem withSource_error {s : State} {o : Operand} {f : FaultCause} (h : resolveRead s o = .error f)
    (k : Word → Result) : withSource s o k = raise f s := by
  simp [withSource, h]

/-- What `withSource` answers as a next state: the fault of an invalid operand, or what the continuation answers. -/
theorem withSource_next {s t : State} {o : Operand} {k : Word → Result} (h : withSource s o k = .next t) :
    t = s.faultEntry .addressOutOfRange ∨ ∃ v, resolveRead s o = .ok v ∧ k v = .next t := by
  cases o
  · exact .inr ⟨_, rfl, h⟩
  · exact .inr ⟨_, rfl, h⟩
  · exact .inl (Host.Outcome.next.inj h).symm

/-- What `withDest` answers as a next state: the fault of a literal or an invalid operand, or what the continuation
answers for the register named. -/
theorem withDest_next {s t : State} {o : Operand} {k : Fin 8 → Result} (h : withDest s o k = .next t) :
    t = s.faultEntry .invalidWriteTarget ∨ t = s.faultEntry .addressOutOfRange ∨
      ∃ i, o = .reg i ∧ k i = .next t := by
  cases o
  · exact .inl (Host.Outcome.next.inj h).symm
  · exact .inr (.inr ⟨_, rfl, h⟩)
  · exact .inr (.inl (Host.Outcome.next.inj h).symm)

/-- What an instruction `dest a b` answers as a next state: an operand fault, or the result in the register and the
advance by 4. -/
theorem threeOperand_next {f : Word → Word → Nat} {d a b : Operand} {s t : State}
    (h : threeOperand f d a b s = .next t) :
    (∃ c, t = s.faultEntry c) ∨
      ∃ i x y, d = .reg i ∧ resolveRead s a = .ok x ∧ resolveRead s b = .ok y ∧
        t = (s.writeReg i (f x y)).advance 4 := by
  obtain h | h | ⟨i, hd, h⟩ := withDest_next h
  · exact .inl ⟨_, h⟩
  · exact .inl ⟨_, h⟩
  obtain h | ⟨x, hx, h⟩ := withSource_next h
  · exact .inl ⟨_, h⟩
  obtain h | ⟨y, hy, h⟩ := withSource_next h
  · exact .inl ⟨_, h⟩
  exact .inr ⟨i, x, y, hd, hx, hy, (Host.Outcome.next.inj h).symm⟩

/-- What a jump answers as a next state: an operand fault, or `pc` at the target. -/
theorem jumpTo_next {o : Operand} {s t : State} (h : jumpTo o s = .next t) :
    (∃ c, t = s.faultEntry c) ∨ ∃ v, resolveRead s o = .ok v ∧ t = s.setPc (zext16 v) := by
  obtain h | ⟨v, hv, h⟩ := withSource_next h
  · exact .inl ⟨_, h⟩
  · exact .inr ⟨v, hv, (Host.Outcome.next.inj h).symm⟩

/-- Popping takes the last entry off the stack and changes nothing else (R21). -/
theorem State.pop_some {s s' : State} {v : Cell} (h : s.pop = some (v, s')) :
    s.stack = s'.stack ++ [v] ∧ s' = { s with stack := s.stack.dropLast } := by
  unfold State.pop at h
  split at h
  · cases h
  · rename_i w hw
    obtain ⟨rfl, rfl⟩ := Prod.mk.inj (Option.some.inj h)
    obtain ⟨ys, hys⟩ := List.getLast?_eq_some_iff.1 hw
    exact ⟨by simp [hys], rfl⟩

/-- Popping answers none exactly on an empty stack (R21). -/
theorem State.pop_none {s : State} : s.pop = none ↔ s.stack = [] := by
  unfold State.pop
  split
  · simpa using ‹s.stack.getLast? = none›
  · rename_i h
    constructor
    · intro hc; cases hc
    · intro hs; simp [hs] at h

/-- A code still held by the channel moves the cursor by one and changes nothing else (R220). -/
theorem State.bufferedChar_some {s s' : State} {c : Nat} (h : s.bufferedChar = some (c, s')) :
    (s.icBuf[s.icCur]? = some c ∨ s.icCur = s.icBuf.length ∧ c = s.params.lineTerminatorCode) ∧
      s' = { s with icCur := s.icCur + 1 } := by
  unfold State.bufferedChar at h
  split at h
  · rename_i w hw
    obtain ⟨rfl, rfl⟩ := Prod.mk.inj (Option.some.inj h)
    exact ⟨.inl hw, rfl⟩
  · split at h
    · obtain ⟨rfl, rfl⟩ := Prod.mk.inj (Option.some.inj h)
      exact ⟨.inr ⟨‹_›, rfl⟩, rfl⟩
    · cases h

/-- The channel holds no code exactly when it is exhausted (R27). -/
theorem State.bufferedChar_none {s : State} : s.bufferedChar = none ↔ s.icBuf.length < s.icCur := by
  unfold State.bufferedChar
  split
  · rename_i h
    have := (List.getElem?_eq_some_iff.1 h).1
    simp; omega
  · rename_i h
    have := List.getElem?_eq_none_iff.1 h
    split <;> simp <;> omega

/-- What `NextChar` does when it answers: a code of the current line, or the first code of the next (R220). -/
theorem State.nextChar_some {s s' : State} {c : Nat} (h : s.nextChar = some (c, s')) :
    s.bufferedChar = some (c, s') ∨
      s.bufferedChar = none ∧ ∃ l rest, s.lines = l :: rest ∧
        State.bufferedChar { s with icBuf := l, icCur := 0, lines := rest } = some (c, s') := by
  unfold State.nextChar at h
  split at h
  · exact .inl (by rw [‹s.bufferedChar = _›, h])
  · split at h
    · cases h
    · exact .inr ⟨‹_›, _, _, ‹_›, h⟩

/-- `NextChar` has no code exactly when the channel is exhausted and no line is queued (R172, R220). -/
theorem State.nextChar_none {s : State} : s.nextChar = none ↔ s.icBuf.length < s.icCur ∧ s.lines = [] := by
  unfold State.nextChar
  split
  · rename_i h
    have : ¬ s.icBuf.length < s.icCur := by rw [← State.bufferedChar_none, h]; simp
    simp [this]
  · rename_i h
    have := State.bufferedChar_none.1 h
    split
    · simp_all
    · rename_i hl
      simp only [State.bufferedChar_none, hl]
      simp

/-- `NextChar` changes only the Input Channel: its line, cursor and queue (R220). -/
theorem State.nextChar_frame {s s' : State} {c : Nat} (h : s.nextChar = some (c, s')) :
    s' = { s with icBuf := s'.icBuf, icCur := s'.icCur, lines := s'.lines } := by
  obtain h | ⟨-, l, rest, -, h⟩ := State.nextChar_some h
  · rw [(State.bufferedChar_some h).2]
  · rw [(State.bufferedChar_some h).2]

end Sys2Proof.Machine
end

