-- ==== Sys2Proof/Laws/Exec.lean ====
section
/-! SUPPORT. For each instruction, everything its meaning can answer as a next state: a fault entry, or its effect.
Proofs about the machine cite these instead of unfolding a meaning. -/

namespace Sys2Proof.Machine

variable {s t : State}

theorem execSet_next {d a : Operand} (h : execSet d a s = .next t) :
    (∃ c, t = s.faultEntry c) ∨
      ∃ i v, d = .reg i ∧ resolveRead s a = .ok v ∧ t = (s.writeReg i v.toNat).advance 3 := by
  obtain h | h | ⟨i, hd, h⟩ := withDest_next h
  · exact .inl ⟨_, h⟩
  · exact .inl ⟨_, h⟩
  obtain h | ⟨v, hv, h⟩ := withSource_next h
  · exact .inl ⟨_, h⟩
  exact .inr ⟨i, v, hd, hv, (Host.Outcome.next.inj h).symm⟩

theorem execPush_next {a : Operand} (h : execPush a s = .next t) :
    (∃ c, t = s.faultEntry c) ∨ ∃ v, resolveRead s a = .ok v ∧ t = (s.push (zext16 v)).advance 2 := by
  obtain h | ⟨v, hv, h⟩ := withSource_next h
  · exact .inl ⟨_, h⟩
  exact .inr ⟨v, hv, (Host.Outcome.next.inj h).symm⟩

theorem execPop_next {d : Operand} (h : execPop d s = .next t) :
    (∃ c, t = s.faultEntry c) ∨
      ∃ i v s', d = .reg i ∧ s.pop = some (v, s') ∧ t = (s'.writeReg i v.toNat).advance 2 := by
  obtain h | h | ⟨i, hd, h⟩ := withDest_next h
  · exact .inl ⟨_, h⟩
  · exact .inl ⟨_, h⟩
  split at h
  · exact .inl ⟨_, (Host.Outcome.next.inj h).symm⟩
  · exact .inr ⟨i, _, _, hd, ‹_›, (Host.Outcome.next.inj h).symm⟩

theorem execMod_next {d a b : Operand} (h : execMod d a b s = .next t) :
    (∃ c, t = s.faultEntry c) ∨
      ∃ i x y, d = .reg i ∧ resolveRead s a = .ok x ∧ resolveRead s b = .ok y ∧ y ≠ 0 ∧
        t = (s.writeReg i (aluMod x y)).advance 4 := by
  obtain h | h | ⟨i, hd, h⟩ := withDest_next h
  · exact .inl ⟨_, h⟩
  · exact .inl ⟨_, h⟩
  obtain h | ⟨x, hx, h⟩ := withSource_next h
  · exact .inl ⟨_, h⟩
  obtain h | ⟨y, hy, h⟩ := withSource_next h
  · exact .inl ⟨_, h⟩
  split at h
  · exact .inl ⟨_, (Host.Outcome.next.inj h).symm⟩
  · exact .inr ⟨i, x, y, hd, hx, hy, ‹_›, (Host.Outcome.next.inj h).symm⟩

theorem execNot_next {d a : Operand} (h : execNot d a s = .next t) :
    (∃ c, t = s.faultEntry c) ∨
      ∃ i x, d = .reg i ∧ resolveRead s a = .ok x ∧ t = (s.writeReg i (aluNot x)).advance 3 := by
  obtain h | h | ⟨i, hd, h⟩ := withDest_next h
  · exact .inl ⟨_, h⟩
  · exact .inl ⟨_, h⟩
  obtain h | ⟨x, hx, h⟩ := withSource_next h
  · exact .inl ⟨_, h⟩
  exact .inr ⟨i, x, hd, hx, (Host.Outcome.next.inj h).symm⟩

theorem execJt_next {c a : Operand} (h : execJt c a s = .next t) :
    (∃ f, t = s.faultEntry f) ∨ t = s.advance 3 ∨
      ∃ v, resolveRead s a = .ok v ∧ t = s.setPc (zext16 v) := by
  obtain h | ⟨x, -, h⟩ := withSource_next h
  · exact .inl ⟨_, h⟩
  split at h
  · obtain h | h := jumpTo_next h
    · exact .inl h
    · exact .inr (.inr h)
  · exact .inr (.inl (Host.Outcome.next.inj h).symm)

theorem execJf_next {c a : Operand} (h : execJf c a s = .next t) :
    (∃ f, t = s.faultEntry f) ∨ t = s.advance 3 ∨
      ∃ v, resolveRead s a = .ok v ∧ t = s.setPc (zext16 v) := by
  obtain h | ⟨x, -, h⟩ := withSource_next h
  · exact .inl ⟨_, h⟩
  split at h
  · exact .inr (.inl (Host.Outcome.next.inj h).symm)
  · obtain h | h := jumpTo_next h
    · exact .inl h
    · exact .inr (.inr h)

theorem execRmem_next {d a : Operand} (h : execRmem d a s = .next t) :
    (∃ c, t = s.faultEntry c) ∨
      ∃ i v, d = .reg i ∧ resolveRead s a = .ok v ∧ t = (s.writeReg i (s.memRead v).toNat).advance 3 := by
  obtain h | h | ⟨i, hd, h⟩ := withDest_next h
  · exact .inl ⟨_, h⟩
  · exact .inl ⟨_, h⟩
  obtain h | ⟨v, hv, h⟩ := withSource_next h
  · exact .inl ⟨_, h⟩
  exact .inr ⟨i, v, hd, hv, (Host.Outcome.next.inj h).symm⟩

theorem execWmem_next {d a : Operand} (h : execWmem d a s = .next t) :
    (∃ c, t = s.faultEntry c) ∨
      ∃ m v, resolveRead s d = .ok m ∧ resolveRead s a = .ok v ∧ t = (s.memWrite m (zext16 v)).advance 3 := by
  obtain h | ⟨m, hm, h⟩ := withSource_next h
  · exact .inl ⟨_, h⟩
  obtain h | ⟨v, hv, h⟩ := withSource_next h
  · exact .inl ⟨_, h⟩
  exact .inr ⟨m, v, hm, hv, (Host.Outcome.next.inj h).symm⟩

theorem execCall_next {a : Operand} (h : execCall a s = .next t) :
    (∃ c, t = s.faultEntry c) ∨
      ∃ v, resolveRead s a = .ok v ∧ t = (s.push (s.pc + 2)).setPc (zext16 v) := by
  obtain h | ⟨v, hv, h⟩ := withSource_next h
  · exact .inl ⟨_, h⟩
  exact .inr ⟨v, hv, (Host.Outcome.next.inj h).symm⟩

theorem execRet_next (h : execRet s = .next t) :
    (∃ v s', s.pop = some (v, s') ∧ t = s'.setPc v) ∨
      s.stack = [] ∧ (s.params.retEmptyPolicy = .fault ∧ t = s.faultEntry .stackUnderflow ∨
        s.params.retEmptyPolicy = .halt ∧ t = s.halt) := by
  unfold execRet at h
  split at h
  · exact .inl ⟨_, _, ‹_›, (Host.Outcome.next.inj h).symm⟩
  · refine .inr ⟨State.pop_none.1 ‹_›, ?_⟩
    split at h
    · exact .inl ⟨‹_›, (Host.Outcome.next.inj h).symm⟩
    · exact .inr ⟨‹_›, (Host.Outcome.next.inj h).symm⟩

theorem execOut_next {a : Operand} (h : execOut a s = .next t) :
    (∃ c, t = s.faultEntry c) ∨ ∃ v, resolveRead s a = .ok v ∧ t = (s.emit v).advance 2 := by
  obtain h | ⟨v, hv, h⟩ := withSource_next h
  · exact .inl ⟨_, h⟩
  exact .inr ⟨v, hv, (Host.Outcome.next.inj h).symm⟩

theorem execIn_next {d : Operand} (h : execIn d s = .next t) :
    (∃ c, t = s.faultEntry c) ∨
      ∃ i, d = .reg i ∧ ((∃ c s', s.nextChar = some (c, s') ∧ t = (s'.writeReg i c).advance 2) ∨
        s.nextChar = none ∧ t = { s with runState := .waitingInput }) := by
  obtain h | h | ⟨i, hd, h⟩ := withDest_next h
  · exact .inl ⟨_, h⟩
  · exact .inl ⟨_, h⟩
  refine .inr ⟨i, hd, ?_⟩
  split at h
  · exact .inl ⟨_, _, ‹_›, (Host.Outcome.next.inj h).symm⟩
  · exact .inr ⟨‹_›, (Host.Outcome.next.inj h).symm⟩

/-- What a waiting core goes on to: the `in` at `pc` with the core `Running` again (R225). -/
theorem resumeIn_next (h : resumeIn s = .next t) :
    ∃ i, fetch s = .ok (.inp (.reg i)) ∧ s.nextChar ≠ none ∧
      execIn (.reg i) { s with runState := .running } = .next t := by
  unfold resumeIn at h
  split at h
  · cases h
  · split at h
    · exact ⟨_, ‹_›, by simp [*], h⟩
    · cases h

/-- What a step answers as a next state: the instruction at `pc` executed or its fetch fault entered, in `Running`; a
waiting `in` completed, in `WaitingInput` (R200, R201). -/
theorem step_next (h : step s = .next t) :
    s.runState = .running ∧ ((∃ i, fetch s = .ok i ∧ exec i s = .next t) ∨
      ∃ f, fetch s = .error f ∧ t = s.faultEntry f) ∨
    s.runState = .waitingInput ∧ resumeIn s = .next t := by
  unfold step at h
  split at h
  · refine .inl ⟨‹_›, ?_⟩
    split at h
    · exact .inl ⟨_, ‹_›, h⟩
    · exact .inr ⟨_, ‹_›, (Host.Outcome.next.inj h).symm⟩
  · exact .inr ⟨‹_›, h⟩
  · cases h
  · cases h

end Sys2Proof.Machine
end

