-- ==== Sys2Proof/Laws/Memory.lean ====
section
/-! SUPPORT. Memory by bytes: reading after writing, and that every memory operation keeps the canonical form. -/

namespace Sys2Proof.Machine

/-- A byte reads the value last written to it, and a write changes no other byte. -/
theorem Memory.readByte_writeByte (m : Memory) (j k : Nat) (b : BitVec 8) :
    Memory.readByte (Memory.writeByte m j b) k = if j = k then b else Memory.readByte m k := by
  have find_writeByte : Memory.find (Memory.writeByte m j b) k = if j = k then some b else Memory.find m k := by
    induction m with
    | nil => simp [Memory.writeByte, Memory.find]
    | cons c m ih =>
      unfold Memory.writeByte
      split
      · simp [Memory.find]
      · split
        · rename_i h
          simp only [Memory.find]
          grind
        · simp only [Memory.find, ih]
          grind
  unfold Memory.readByte
  rw [find_writeByte]
  split <;> rfl

/-- Every address listed after a write was listed before, or is the one written. -/
theorem Memory.mem_writeByte {m : Memory} {j : Nat} {b : BitVec 8} {c : Host.Cell}
    (h : c ∈ Memory.writeByte m j b) : c.1 = j ∨ c ∈ m := by
  induction m with
  | nil => simp [Memory.writeByte] at h; simp [h]
  | cons d m ih =>
    unfold Memory.writeByte at h
    split at h
    · simp only [List.mem_cons] at h ⊢
      rcases h with h | h | h
      · simp [h]
      · simp [h]
      · simp [h]
    · split at h
      · simp only [List.mem_cons] at h ⊢
        rcases h with h | h
        · simp [h]
        · simp [h]
      · simp only [List.mem_cons] at h ⊢
        rcases h with h | h
        · simp [h]
        · rcases ih h with h | h <;> simp [h]

/-- Writing a byte of the address space keeps the canonical form. -/
theorem Memory.wf_writeByte {m : Memory} (h : Memory.wf m) {j : Nat} (hj : j < 65536) (b : BitVec 8) :
    Memory.wf (Memory.writeByte m j b) := by
  refine ⟨?_, fun c hc => ?_⟩
  · have hp := h.1
    clear h
    induction m with
    | nil => simp [Memory.writeByte]
    | cons c m ih =>
      rw [List.pairwise_cons] at hp
      unfold Memory.writeByte
      split
      · refine List.pairwise_cons.2 ⟨fun d hd => ?_, List.pairwise_cons.2 hp⟩
        rcases List.mem_cons.1 hd with rfl | hd
        · assumption
        · exact Nat.lt_trans ‹_› (hp.1 d hd)
      · split
        · rename_i heq
          refine List.pairwise_cons.2 ⟨fun d hd => ?_, hp.2⟩
          rw [heq]; exact hp.1 d hd
        · refine List.pairwise_cons.2 ⟨fun d hd => ?_, ih hp.2⟩
          rcases Memory.mem_writeByte hd with hd | hd
          · omega
          · exact hp.1 d hd
  · rcases Memory.mem_writeByte hc with hc | hc
    · omega
    · exact h.2 c hc

/-- The two bytes of a cell make the cell again (R46). -/
theorem cellOfBytes_bytes (v : Cell) : cellOfBytes (lowByte v) (highByte v) = v := by
  have := v.isLt
  apply BitVec.eq_of_toNat_eq
  simp [cellOfBytes, lowByte, highByte]
  omega

/-- `MemWrite` keeps the canonical form (R44). -/
theorem Memory.wf_writeCell {m : Memory} (h : Memory.wf m) (a : Word) (v : Cell) :
    Memory.wf (Memory.writeCell m a v) := by
  have := a.isLt
  exact Memory.wf_writeByte (Memory.wf_writeByte h (by omega) _) (by omega) _

/-- Storing cells, the operation of the image load, keeps the canonical form (R56). -/
theorem Memory.wf_storeCells {m : Memory} (h : Memory.wf m) (a : Nat) (cs : List Cell) :
    Memory.wf (Memory.storeCells m a cs) := by
  induction cs generalizing m a with
  | nil => exact h
  | cons c cs ih => exact ih (Memory.wf_writeCell h _ c) _

/-- The memory after reset is in its canonical form. -/
theorem State.reset_mem_wf : Memory.wf State.reset.mem := by decide

/-- A byte outside the two bytes of cell `a` is unchanged by `MemWrite` at `a`. -/
theorem Memory.readByte_writeCell_of_ne (m : Memory) (a : Word) (v : Cell) {k : Nat} (h : k / 2 ≠ a.toNat) :
    Memory.readByte (Memory.writeCell m a v) k = Memory.readByte m k := by
  unfold Memory.writeCell
  rw [Memory.readByte_writeByte, Memory.readByte_writeByte, if_neg (by omega), if_neg (by omega)]

end Sys2Proof.Machine
end

