-- ==== Sys2Proof/Laws/PerInstr.lean ====
section
/-! SUPPORT. The law family EncodeShape: the cells of an instruction are its opcode word, one of the 22 of the table,
and as many operand words as the table's arity (30_encoding.md R60, R63). -/

namespace Sys2Proof.Laws.EncodeShape

/-- The opcode is in the arity table, with the number of operands the instruction has, and leads the encoding. -/
def Statement (i : Instr) : Prop :=
  arity (BitVec.ofNat 16 i.opcode) = some i.operands.length ∧
    ∃ ops, encode i = BitVec.ofNat 16 i.opcode :: ops ∧ ops.length = i.operands.length

theorem halt : Statement .halt := ⟨rfl, _, rfl, rfl⟩
theorem set (d a : Operand) : Statement (.set d a) := ⟨rfl, _, rfl, rfl⟩
theorem push (a : Operand) : Statement (.push a) := ⟨rfl, _, rfl, rfl⟩
theorem pop (d : Operand) : Statement (.pop d) := ⟨rfl, _, rfl, rfl⟩
theorem eq (d a b : Operand) : Statement (.eq d a b) := ⟨rfl, _, rfl, rfl⟩
theorem gt (d a b : Operand) : Statement (.gt d a b) := ⟨rfl, _, rfl, rfl⟩
theorem jmp (t : Operand) : Statement (.jmp t) := ⟨rfl, _, rfl, rfl⟩
theorem jt (c t : Operand) : Statement (.jt c t) := ⟨rfl, _, rfl, rfl⟩
theorem jf (c t : Operand) : Statement (.jf c t) := ⟨rfl, _, rfl, rfl⟩
theorem add (d a b : Operand) : Statement (.add d a b) := ⟨rfl, _, rfl, rfl⟩
theorem mult (d a b : Operand) : Statement (.mult d a b) := ⟨rfl, _, rfl, rfl⟩
theorem mod (d a b : Operand) : Statement (.mod d a b) := ⟨rfl, _, rfl, rfl⟩
theorem and (d a b : Operand) : Statement (.and d a b) := ⟨rfl, _, rfl, rfl⟩
theorem or (d a b : Operand) : Statement (.or d a b) := ⟨rfl, _, rfl, rfl⟩
theorem not (d a : Operand) : Statement (.not d a) := ⟨rfl, _, rfl, rfl⟩
theorem rmem (d a : Operand) : Statement (.rmem d a) := ⟨rfl, _, rfl, rfl⟩
theorem wmem (a v : Operand) : Statement (.wmem a v) := ⟨rfl, _, rfl, rfl⟩
theorem call (t : Operand) : Statement (.call t) := ⟨rfl, _, rfl, rfl⟩
theorem ret : Statement .ret := ⟨rfl, _, rfl, rfl⟩
theorem out (a : Operand) : Statement (.out a) := ⟨rfl, _, rfl, rfl⟩
theorem inp (d : Operand) : Statement (.inp d) := ⟨rfl, _, rfl, rfl⟩
theorem noop : Statement .noop := ⟨rfl, _, rfl, rfl⟩

end Sys2Proof.Laws.EncodeShape
end

