-- ==== Sys2Proof/Tests/Slice0.lean ====
section
/-! SUPPORT. Tests of one step each, expected values from the vectors of 95_test_vectors.md and the rules' examples
(named in each test's comment), the smoke of WellFormed, decoding of words written out from R61 and R74, and for every
statement with hypotheses a witness that meets them. -/

namespace Sys2Proof.Tests

open Sys2Proof Sys2Proof.Machine Sys2Proof.Claims

/-- The reset state with cells stored from `pc` on and the core there. -/
def at_ (pc : Nat) (cells : List Cell) : State :=
  { State.reset with mem := Memory.storeCells [] pc cells, pc := BitVec.ofNat 16 pc }

/-- What a next state shows; none for a stop. -/
def after {α : Type} (r : Result) (f : State → α) : Option α :=
  match r with
  | .next s => some (f s)
  | _ => none

/-- The decoded instruction, if any. -/
def decoded (cells : List Cell) : Option Instr :=
  match decode cells with
  | .ok (i, _) => some i
  | .error _ => none

/-- Where a core stands: `pc`, `RUN_STATE`, the code of `FAULT_CAUSE`. -/
def stand (s : State) : BitVec 16 × RunState × Nat := (s.pc, s.runState, faultCode s.faultCause)

/-! ### WellFormed refuses each ill-formed term -/

/-- R67: 32775 is a register reference, not an invalid word. -/
theorem test_wf_refuses_register_as_invalid : (Instr.out (.invalid 32775)).wf = false := by decide
/-- R67: 0 is a literal, not an invalid word; in the last operand too. -/
theorem test_wf_refuses_literal_as_invalid : (Instr.add (.reg 0) (.lit 1) (.invalid 0)).wf = false := by decide
/-- R67: 32776 is the first invalid word. -/
theorem test_wf_takes_first_invalid : (Instr.jt (.lit 0) (.invalid 32776)).wf = true := by decide

/-! ### Decoding: words written out bit by bit from R61, R62, R67, R74 -/

theorem test_decode_halt : decoded [0b0000000000000000] = some .halt := by decide
theorem test_decode_set : decoded [0b0000000000000001, 0b1000000000000000, 0b0000000000000100]
    = some (.set (.reg 0) (.lit 4)) := by decide
theorem test_decode_push : decoded [0b0000000000000010, 0b1000000000000001] = some (.push (.reg 1)) := by decide
theorem test_decode_pop : decoded [0b0000000000000011, 0b1000000000000010] = some (.pop (.reg 2)) := by decide
theorem test_decode_eq : decoded [0b0000000000000100, 0b1000000000000010, 0b1000000000000000, 0b0000000000001001]
    = some (.eq (.reg 2) (.reg 0) (.lit 9)) := by decide
theorem test_decode_gt : decoded [0b0000000000000101, 0b1000000000000001, 0b0000000000000101, 0b0000000000000011]
    = some (.gt (.reg 1) (.lit 5) (.lit 3)) := by decide
theorem test_decode_jmp : decoded [0b0000000000000110, 0b0000000011001000] = some (.jmp (.lit 200)) := by decide
theorem test_decode_jt : decoded [0b0000000000000111, 0b1000000000000000, 0b0000000000000011]
    = some (.jt (.reg 0) (.lit 3)) := by decide
theorem test_decode_jf : decoded [0b0000000000001000, 0b1000000000000001, 0b0000000000101000]
    = some (.jf (.reg 1) (.lit 40)) := by decide
theorem test_decode_add : decoded [0b0000000000001001, 0b1000000000000000, 0b1000000000000000, 0b1000000000000001]
    = some (.add (.reg 0) (.reg 0) (.reg 1)) := by decide
theorem test_decode_mult : decoded [0b0000000000001010, 0b1000000000000000, 0b1000000000000001, 0b1000000000000010]
    = some (.mult (.reg 0) (.reg 1) (.reg 2)) := by decide
theorem test_decode_mod : decoded [0b0000000000001011, 0b1000000000000000, 0b0000000000010001, 0b0000000000000101]
    = some (.mod (.reg 0) (.lit 17) (.lit 5)) := by decide
theorem test_decode_and : decoded [0b0000000000001100, 0b1000000000000000, 0b0000000000001100, 0b0000000000001010]
    = some (.and (.reg 0) (.lit 12) (.lit 10)) := by decide
theorem test_decode_or : decoded [0b0000000000001101, 0b1000000000000000, 0b0000000000001100, 0b0000000000001010]
    = some (.or (.reg 0) (.lit 12) (.lit 10)) := by decide
theorem test_decode_not : decoded [0b0000000000001110, 0b1000000000000000, 0b0111111111111111]
    = some (.not (.reg 0) (.lit 32767)) := by decide
theorem test_decode_rmem : decoded [0b0000000000001111, 0b1000000000000001, 0b0000000000000000]
    = some (.rmem (.reg 1) (.lit 0)) := by decide
theorem test_decode_wmem : decoded [0b0000000000010000, 0b0000000000010100, 0b1000000000000001]
    = some (.wmem (.lit 20) (.reg 1)) := by decide
theorem test_decode_call : decoded [0b0000000000010001, 0b0000000000000110] = some (.call (.lit 6)) := by decide
theorem test_decode_ret : decoded [0b0000000000010010] = some .ret := by decide
theorem test_decode_out : decoded [0b0000000000010011, 0b0000000001000001] = some (.out (.lit 65)) := by decide
theorem test_decode_in : decoded [0b0000000000010100, 0b1000000000000111] = some (.inp (.reg 7)) := by decide
theorem test_decode_noop : decoded [0b0000000000010101] = some .noop := by decide
/-- R62, V162: the whole cell is the opcode. -/
theorem test_decode_refuses_high_bits : decoded [256] = none := by decide
/-- V163. -/
theorem test_decode_refuses_register_word : decoded [32768] = none := by decide
/-- R66, R67: the operand words at the edges of the classes are kept. -/
theorem test_decode_operand_edges : decoded [4, 32775, 32776, 65535]
    = some (.eq (.reg 7) (.invalid 32776) (.invalid 65535)) := by decide
/-- B1: image bytes, low byte first. -/
theorem test_image_bytes : cellsOfBytes [0x13, 0x00, 0x41, 0x00, 0x00, 0x80] = some [19, 65, 32768] := by decide
/-- The bits of a table row: opcode 9, operand words zero. -/
theorem test_decodeTableWord : decodeTableWord 16 9 = some (.add (.lit 0) (.lit 0) (.lit 0)) := by decide
/-- A second cell's bits count on from the first's. -/
theorem test_decodeTableWord_second_cell : decodeTableWord 32 (20 + 65536 * 32769) = some (.inp (.reg 1)) := by decide
/-- The row's instruction runs as the first after reset. -/
theorem test_withFetchWord : after (step (State.reset.withFetchWord 16 21)) stand = some (1, .running, 0) := by decide

/-! ### One step each -/

/-- V1. -/
theorem test_set : after (step (at_ 0 [1, 32768, 4])) (fun s => (s.reg 0, s.pc)) = some (4, 3) := by decide
/-- V7. -/
theorem test_set_priority : after (step (at_ 0 [1, 5, 40000])) stand = some (0, .faulted, 2) := by decide
/-- V8. -/
theorem test_push : after (step (({ at_ 9 [2, 32769] with stack := [2] } : State).writeReg 1 17))
    (fun s => (s.stack, s.pc)) = some ([2, 17], 11) := by decide
/-- V11. -/
theorem test_pop : after (step { at_ 11 [3, 32770] with stack := [2, 17] })
    (fun s => (s.reg 2, s.stack, s.pc)) = some (17, [2], 13) := by decide
/-- V15. -/
theorem test_pop_return_address : after (step (({ at_ 0 [3, 32768] with stack := [32768] } : State).writeReg 0 9))
    (fun s => (s.reg 0, s.stack)) = some (0, []) := by decide
/-- V22. -/
theorem test_eq_reads_first : after (step ((at_ 0 [4, 32768, 32768, 32768]).writeReg 0 77))
    (fun s => (s.reg 0, s.pc)) = some (1, 4) := by decide
/-- V21. -/
theorem test_eq_false : after (step (((at_ 0 [4, 32770, 32768, 9]).writeReg 0 8).writeReg 2 5))
    (fun s => s.reg 2) = some 0 := by decide
/-- V28. -/
theorem test_gt_unsigned : after (step (at_ 0 [5, 32768, 32767, 0])) (fun s => s.reg 0) = some 1 := by decide
/-- V27. -/
theorem test_gt_equal : after (step ((at_ 0 [5, 32769, 7, 7]).writeReg 1 1)) (fun s => s.reg 1) = some 0 := by decide
/-- V41. -/
theorem test_jmp : after (step ((at_ 100 [6, 32768]).writeReg 0 12)) stand = some (12, .running, 0) := by decide
/-- V46. -/
theorem test_jt_taken : after (step (at_ 0 [7, 32767, 50])) stand = some (50, .running, 0) := by decide
/-- V47. -/
theorem test_jt_untaken : after (step (at_ 0 [7, 0, 40000])) stand = some (3, .running, 0) := by decide
/-- V51. -/
theorem test_jf_taken : after (step (at_ 20 [8, 32769, 40])) stand = some (40, .running, 0) := by decide
/-- V54. -/
theorem test_jf_bad_target : after (step (at_ 0 [8, 0, 40000])) stand = some (0, .faulted, 1) := by decide
/-- V61. -/
theorem test_add_wraps : after (step ((at_ 0 [9, 32768, 32768, 32768]).writeReg 0 32767))
    (fun s => (s.reg 0, s.pc)) = some (32766, 4) := by decide
/-- V68. -/
theorem test_mult_wraps : after (step (at_ 0 [10, 32768, 32767, 32767])) (fun s => s.reg 0) = some 1 := by decide
/-- V73. -/
theorem test_mod : after (step (at_ 0 [11, 32768, 17, 5])) (fun s => s.reg 0) = some 2 := by decide
/-- V79. -/
theorem test_mod_zero : after (step ((at_ 0 [11, 32768, 1, 0]).writeReg 0 9))
    (fun s => (s.reg 0, stand s)) = some (9, 0, .faulted, 5) := by decide
/-- V82. -/
theorem test_and : after (step (at_ 0 [12, 32768, 12, 10])) (fun s => s.reg 0) = some 8 := by decide
/-- V86. -/
theorem test_or : after (step (at_ 0 [13, 32768, 21845, 10922])) (fun s => s.reg 0) = some 32767 := by decide
/-- V92. -/
theorem test_not : after (step ((at_ 0 [14, 32768, 32768]).writeReg 0 10922))
    (fun s => (s.reg 0, s.pc)) = some (21845, 3) := by decide
/-- V103: the cell read is the instruction's own second one, 32768. -/
theorem test_rmem_truncates : after (step ((at_ 0 [15, 32768, 1]).writeReg 0 9))
    (fun s => (s.reg 0, s.pc)) = some (0, 3) := by decide
/-- V102. -/
theorem test_rmem_same_register : after (step (((at_ 0 [15, 32768, 32768]).writeReg 0 500).memWrite 500 42))
    (fun s => s.reg 0) = some 42 := by decide
/-- V110. -/
theorem test_wmem : after (step ((at_ 2 [16, 20, 32769]).writeReg 1 17)) (fun s => (s.memRead 20, s.pc)) = some (17, 5) := by
  decide
/-- V117. -/
theorem test_wmem_own_operand : after (step (at_ 0 [16, 1, 7])) (fun s => (s.memRead 1, s.pc)) = some (7, 3) := by decide
/-- V121. -/
theorem test_call : after (step (({ at_ 10 [17, 32769] with stack := [5] } : State).writeReg 1 1000))
    (fun s => (s.stack, s.pc)) = some ([5, 12], 1000) := by decide
/-- V122. -/
theorem test_call_last_cells : after (step (at_ 32766 [17, 0])) (fun s => (s.stack, s.pc)) = some ([32768], 0) := by decide
/-- V125. -/
theorem test_ret : after (step { at_ 13 [18] with stack := [7, 100] }) (fun s => (s.stack, s.pc)) = some ([7], 100) := by
  decide
/-- V126 and V127: the two policies. -/
theorem test_ret_empty : after (step (at_ 13 [18])) stand = some (13, .faulted, 4) ∧
    after (step { at_ 13 [18] with params := { retEmptyPolicy := .halt, lineTerminatorCode := 10 } }) stand
      = some (13, .halted, 0) := by decide
/-- V131. -/
theorem test_out : after (step ((at_ 0 [19, 32768]).writeReg 0 32767)) (fun s => (s.outTrace, s.pc)) = some ([32767], 2) := by
  decide
/-- V139. -/
theorem test_in_next_line : after (step { at_ 0 [20, 32768] with icBuf := [104, 105], icCur := 3, lines := [[106], [107]] })
    (fun s => (s.reg 0, s.icBuf, s.icCur, s.lines)) = some (106, [106], 1, [[107]]) := by decide
/-- V136 and V137: the wait, and the empty line. -/
theorem test_in_wait_and_empty_line : after (step (at_ 0 [20, 32768])) stand = some (0, .waitingInput, 0) ∧
    after (step { at_ 0 [20, 32768] with lines := [[]] }) (fun s => (s.reg 0, s.icBuf, s.icCur, s.pc)) = some (10, [], 1, 2) := by
  decide
/-- P6: the delivery of "h" completes the waiting `in`. -/
theorem test_delivery : after (deliverLine [104] { at_ 0 [20, 32768] with runState := .waitingInput })
    (fun s => (s.reg 0, s.icBuf, s.icCur, stand s)) = some (104, [104], 1, 2, .running, 0) := by decide
/-- V151. -/
theorem test_halt : after (step (at_ 32767 [0])) stand = some (32768, .halted, 0) := by decide
/-- V153. -/
theorem test_noop : after (step (at_ 32767 [21])) stand = some (32768, .running, 0) := by decide
/-- V164 and V166: the last place an instruction fits. -/
theorem test_fetch_bound : after (step (at_ 32766 [4, 32768])) stand = some (32766, .faulted, 6) ∧
    after (step (at_ 32765 [1, 32768, 5])) stand = some (32768, .running, 0) := by decide
/-- V168 and V169. -/
theorem test_fetch_faults : after (step (at_ 32767 [22])) stand = some (32767, .faulted, 3) ∧
    after (step (at_ 32768 [])) stand = some (32768, .faulted, 6) := by decide
/-- B7, B8, B9. -/
theorem test_patches : after (applyPatches [(32775, 1234), (32768, 40000), (5, 21)] State.reset)
    (fun s => (s.reg 7, s.reg 0, s.memRead 5)) = some (1234, 7232, 21) := by decide
/-- B3 and B4: the last cell, and one word too many. -/
theorem test_image_load : after (loadImage 32767 [0x15, 0x00] State.reset) (fun s => s.memRead 32767) = some 21 ∧
    after (loadImage 32767 [0x15, 0x00, 0x15, 0x00] State.reset) stand = none := by decide
/-- R3 and B1: a host that names no `IMAGE_BASE` loads at 0. -/
theorem test_boot_default_base : after (boot Params.defaults [] (image := [0x13, 0x00, 0x41, 0x00]) (patches := []))
    (fun s => (s.memRead 0, s.memRead 1, s.pc)) = some (19, 65, 0) := by decide
/-- S9 and R80: `add r0 r0 r1`, and `00000 out 65`. -/
theorem test_text : Assembly.instrText (.add (.reg 0) (.reg 0) (.reg 1))
      = some ['a', 'd', 'd', ' ', 'r', '0', ' ', 'r', '0', ' ', 'r', '1'] ∧
    Assembly.listingLine 0 (.out (.lit 65)) = some ['0', '0', '0', '0', '0', ' ', 'o', 'u', 't', ' ', '6', '5'] := by decide

/-! ### Witnesses: for each statement with hypotheses, states and operands that meet them -/

/-- A state at the first instruction of a run: `in r7` at 0, reset values. -/
def atIn : State := at_ 0 [20, 32775]

/-- A core that waits, with no line. -/
def waiting : State := { atIn with runState := .waitingInput }

theorem atIn_fetch : fetch atIn = .ok (.inp (.reg 7)) := rfl

theorem atIn_inv : atIn.Inv := by
  refine ⟨by decide, by simp [atIn, at_, State.reset], by decide, by decide, fun h => ?_, fun h => ?_⟩
  · exact absurd h (by decide)
  · exact absurd h (by decide)

theorem waiting_fetch : fetch waiting = .ok (.inp (.reg 7)) := (fetch_with_runState _ _).trans atIn_fetch

theorem waiting_waits : waiting.exhausted ∧ waiting.lines = [] := ⟨by unfold State.exhausted; decide, rfl⟩

theorem waiting_inv : waiting.Inv where
  pcInRange := atIn_inv.pcInRange
  stackInRange := atIn_inv.stackInRange
  memCanonical := atIn_inv.memCanonical
  causeIffFaulted := by decide
  waitsAtIn _ := ⟨7, waiting_fetch⟩
  waitsForLine _ := waiting_waits

theorem witness_OperandClassByBits :
    (∃ o : Cell, o.getLsbD 15 = false ∧ o.toNat = 32767) ∧
    (∃ o : Cell, o.getLsbD 15 = true ∧ o.extractLsb' 3 12 = 0 ∧ o.toNat = 32775) ∧
    (∃ o : Cell, o.getLsbD 15 = true ∧ o.extractLsb' 3 12 ≠ 0 ∧ o.toNat = 32776) :=
  ⟨⟨32767, by decide⟩, ⟨32775, by decide⟩, ⟨32776, by decide⟩⟩
theorem witness_ResolutionOfRawOperands :
    (∃ o : Cell, o.toNat ≤ 32767 ∧ o.toNat = 32767) ∧ (∃ (o : Cell) (i : Fin 8), o.toNat = 32768 + i.val ∧ i = 7) ∧
    (∃ o : Cell, 32776 ≤ o.toNat ∧ o.toNat = 32776) :=
  ⟨⟨32767, by decide⟩, ⟨32775, 7, by decide⟩, ⟨32776, by decide⟩⟩
theorem witness_DecodeOfEncode : ∃ i : Instr, i.wf = true ∧ i = .wmem (.invalid 32776) (.lit 32767) := ⟨_, by decide, rfl⟩
theorem witness_EncodeOfDecode : ∃ cells rest i, decode cells = .ok (i, rest) ∧ rest = [7] := ⟨[1, 32775, 65535, 7], [7], _, rfl, rfl⟩
theorem witness_ArityTableFixesLength :
    (∃ op : Cell, 21 < op.toNat ∧ op = 22) ∧
    (∃ (op : Cell) (ops : List Cell) (n : Nat), arityTable[op.toNat]? = some n ∧ ops.length < n ∧ n = 3) ∧
    (∃ (op : Cell) (ops : List Cell) (n : Nat), arityTable[op.toNat]? = some n ∧ n ≤ ops.length ∧ op = 21) :=
  ⟨⟨22, by decide⟩, ⟨13, [0, 0], 3, by decide⟩, ⟨21, [], 0, by decide⟩⟩
theorem witness_FetchedInstructionStandsAtPc : ∃ s i, fetch s = .ok i ∧ s.pc = 32767 := ⟨at_ 32767 [21], .noop, rfl, rfl⟩
theorem witness_FetchFaultsExactly : ∃ s f, fetch s = .error f := ⟨at_ 32768 [], .fetchOutOfRange, rfl⟩
theorem witness_AssemblyTextGivesWordsBack : ∃ i : Instr, (∀ c, Operand.invalid c ∉ i.operands) ∧ i = .set (.reg 7) (.lit 32767) :=
  ⟨_, by simp [Instr.operands], rfl⟩
theorem witness_StepRunsTheInstructionAtPc :
    (∃ (s : State) (i : Instr), s.runState = .running ∧ i.wf = true ∧ s.pc.toNat + (1 + i.operands.length) ≤ 32768 ∧
      ∀ k (h : k < (encode i).length), s.memRead (BitVec.ofNat 15 (s.pc.toNat + k)) = (encode i)[k]) ∧
    (∃ (s : State) (f : FaultCause), s.runState = .running ∧ fetch s = .error f) := by
  refine ⟨⟨at_ 32766 [19, 65], .out (.lit 65), by decide, by decide, by decide, ?_⟩, ⟨at_ 0 [22], .unknownOpcode, rfl, rfl⟩⟩
  decide
theorem witness_TerminalStatesDoNothing :
    (∃ s : State, s.runState = .halted) ∧ (∃ s : State, s.runState = .faulted) ∧
    (∃ s : State, s.runState = .waitingInput ∧ s.exhausted ∧ s.lines = []) :=
  ⟨⟨{ atIn with runState := .halted }, rfl⟩, ⟨{ atIn with runState := .faulted }, rfl⟩,
    ⟨waiting, rfl, by unfold State.exhausted; decide, rfl⟩⟩
theorem witness_RunStateTransitions :
    (∃ s t, step s = .next t ∧ s.runState = .running ∧ t.runState = .waitingInput) ∧
    (∃ s t, step s = .next t ∧ s.runState = .waitingInput) ∧ (∃ s t, step s = .next t ∧ t.runState = .halted) ∧
    (∃ s t, deliverLine [] s = .next t ∧ s.runState = .waitingInput) ∧
    (∃ s t, deliverLine [104] s = .next t ∧ s.runState = .halted) :=
  ⟨⟨atIn, waiting, rfl, rfl, rfl⟩, ⟨{ waiting with lines := [[104]] }, _, rfl, rfl⟩, ⟨at_ 32767 [0], _, rfl, rfl⟩,
    ⟨waiting, _, rfl, rfl⟩, ⟨{ atIn with runState := .halted }, _, rfl, rfl⟩⟩
theorem witness_FaultsArePrecise : ∃ (i : Instr) (s t : State), s.runState = .running ∧ exec i s = .next t ∧ t.runState = .faulted :=
  ⟨.pop (.reg 7), atIn, _, rfl, rfl, rfl⟩
/-- For `InvalidWriteTargetExactly`, `AddressOutOfRangeExactly` and `ExecutionFaultsExactly`, whose only hypothesis is
a `Running` core; each of the causes occurs, the last of `jt` only when it is taken. -/
theorem witness_RunningCore : ∃ s : State, s.runState = .running ∧
    exec (.set (.lit 32767) (.invalid 65535)) s = .next (faulted s .invalidWriteTarget) ∧
    exec (.jt (.lit 1) (.invalid 32776)) s = .next (faulted s .addressOutOfRange) ∧
    exec (.pop (.reg 7)) s = .next (faulted s .stackUnderflow) ∧ exec .ret s = .next (faulted s .stackUnderflow) ∧
    exec (.mod (.reg 7) (.lit 1) (.lit 0)) s = .next (faulted s .divisionByZeroModulus) :=
  ⟨atIn, rfl, rfl, rfl, rfl, rfl, rfl⟩
/-- For every statement whose hypotheses are that sources resolve (the rules of `set`, `push`, `eq`, `gt`, `jmp`,
`add`, `mult`, `and`, `or`, `not`, `rmem`, `wmem`, `call`, `out`, and the balance of `call` and `push`): a literal at
its largest and a register. -/
theorem witness_SourcesResolve : ∃ (s : State) (a b : Operand) (x y : Word), resolveRead s a = .ok x ∧ resolveRead s b = .ok y ∧
    x = 32767 ∧ b = .reg 7 := ⟨atIn, .lit 32767, .reg 7, _, _, rfl, rfl, rfl, rfl⟩
theorem witness_PopTakesTheTop : (∃ (s : State) (below : List Cell) (top : Cell), s.stack = below ++ [top] ∧ top = 32768) ∧
    (∃ s : State, s.stack = []) := ⟨⟨{ atIn with stack := [1, 32768] }, [1], 32768, rfl, rfl⟩, ⟨atIn, rfl⟩⟩
theorem witness_ConditionalJumps : (∃ (s : State) (c a : Operand) (x t : Word), resolveRead s c = .ok x ∧ x ≠ 0 ∧ resolveRead s a = .ok t) ∧
    (∃ (s : State) (c a : Operand) (x t : Word), resolveRead s c = .ok x ∧ x = 0 ∧ resolveRead s a = .ok t) :=
  ⟨⟨atIn, .lit 1, .lit 32767, 1, 32767, rfl, by decide, rfl⟩, ⟨atIn, .reg 0, .lit 0, 0, 0, rfl, rfl, rfl⟩⟩
theorem witness_ModIsTheRemainder :
    (∃ (s : State) (a b : Operand) (x y : Word), resolveRead s a = .ok x ∧ resolveRead s b = .ok y ∧ y.toNat ≠ 0) ∧
    (∃ (s : State) (a b : Operand) (x y : Word), resolveRead s a = .ok x ∧ resolveRead s b = .ok y ∧ y.toNat = 0) :=
  ⟨⟨atIn, .lit 32767, .lit 1, 32767, 1, rfl, rfl, by decide⟩, ⟨atIn, .lit 1, .reg 0, 1, 0, rfl, rfl, by decide⟩⟩
theorem witness_RetPopsOrFollowsThePolicy :
    (∃ (s : State) (below : List Cell) (top : Cell), s.stack = below ++ [top]) ∧
    (∃ s : State, s.stack = [] ∧ s.params.retEmptyPolicy = .fault) ∧ (∃ s : State, s.stack = [] ∧ s.params.retEmptyPolicy = .halt) :=
  ⟨⟨{ atIn with stack := [2] }, [], 2, rfl⟩, ⟨atIn, rfl, rfl⟩,
    ⟨{ atIn with params := { retEmptyPolicy := .halt, lineTerminatorCode := 10 } }, rfl, rfl⟩⟩
theorem witness_InTakesOneCode :
    (∃ (s : State) (c : Nat), s.icBuf[s.icCur]? = some c ∧ c = 32833) ∧ (∃ s : State, s.icCur = s.icBuf.length) ∧
    (∃ (s : State) (c : Nat) (cs : List Nat) (rest : List (List Nat)), s.icBuf.length < s.icCur ∧ s.lines = (c :: cs) :: rest) ∧
    (∃ (s : State) (rest : List (List Nat)), s.icBuf.length < s.icCur ∧ s.lines = [] :: rest) ∧
    (∃ s : State, s.icBuf.length < s.icCur ∧ s.lines = []) :=
  ⟨⟨{ atIn with icBuf := [32833], icCur := 0 }, 32833, by decide, rfl⟩, ⟨{ atIn with icBuf := [104], icCur := 1 }, by decide⟩,
    ⟨{ atIn with lines := [[104]] }, 104, [], [], by decide, rfl⟩, ⟨{ atIn with lines := [[]] }, [], by decide, rfl⟩,
    ⟨atIn, by decide, rfl⟩⟩
theorem witness_RegisterInstructionFrame : ∃ (i : Instr) (d a b : Operand) (s t : State),
    i ∈ [.set d a, .eq d a b, .gt d a b, .add d a b, .mult d a b, .mod d a b, .and d a b, .or d a b, .not d a, .rmem d a] ∧
    exec i s = .next t ∧ d = .reg 7 := ⟨_, .reg 7, .lit 0, .lit 0, atIn, _, .tail _ (.head _), rfl, rfl⟩
theorem witness_ControlInstructionFrame : ∃ (i : Instr) (c a : Operand) (s t : State),
    i ∈ [.jmp a, .jt c a, .jf c a, .noop, .halt] ∧ exec i s = .next t := ⟨_, .lit 0, .lit 0, atIn, _, .head _, rfl⟩
theorem witness_StackInstructionFrame : ∃ (i : Instr) (d a : Operand) (s t : State),
    i ∈ [.push a, .pop d, .call a, .ret] ∧ exec i s = .next t := ⟨_, .lit 0, .lit 0, atIn, _, .head _, rfl⟩
theorem witness_WmemFrame :
    (∃ (d a : Operand) (s t : State) (m : Word), exec (.wmem d a) s = .next t ∧ resolveRead s d = .ok m ∧ m = 32767) ∧
    (∃ (d a : Operand) (s t : State) (f : FaultCause), exec (.wmem d a) s = .next t ∧ resolveRead s a = .error f) :=
  ⟨⟨.lit 32767, .lit 5, atIn, _, 32767, rfl, rfl, rfl⟩, ⟨.lit 0, .invalid 32776, atIn, _, _, rfl, rfl⟩⟩
theorem witness_CharacterInstructionFrame :
    (∃ (a : Operand) (s t : State), exec (.out a) s = .next t) ∧ (∃ (d : Operand) (s t : State), exec (.inp d) s = .next t) :=
  ⟨⟨.lit 65, atIn, _, rfl⟩, ⟨.reg 7, atIn, _, rfl⟩⟩
theorem witness_RegisterWriteThenRead : ∃ i j : Fin 8, j ≠ i := ⟨0, 7, by decide⟩
theorem witness_MemWriteThenRead : (∃ a b : Word, b ≠ a) ∧ ∃ s : State, Memory.wf s.mem :=
  ⟨⟨0, 32767, by decide⟩, ⟨atIn, atIn_inv.memCanonical⟩⟩
/-- The opcode word of `out 65` stored below an operand that stands at 32767, and the last operand word of
`set r7 v`, at 32767. -/
theorem witness_StoreIsSeenByTheNextFetch :
    (∃ (s : State) (m v p : Word) (i : Instr), resolveRead s (.lit m) = .ok m ∧ resolveRead s (.lit v) = .ok v ∧
      i.wf = true ∧ p.toNat + (1 + i.operands.length) ≤ 32768 ∧ (∀ k (h : k < (encode i).length), (encode i)[k] =
        if p.toNat + k = m.toNat then v.setWidth 16 else s.memRead (BitVec.ofNat 15 (p.toNat + k))) ∧ m = p ∧ m = 32766) ∧
    (∃ (s : State) (m v p : Word) (i : Instr), resolveRead s (.lit m) = .ok m ∧ resolveRead s (.lit v) = .ok v ∧
      i.wf = true ∧ p.toNat + (1 + i.operands.length) ≤ 32768 ∧ (∀ k (h : k < (encode i).length), (encode i)[k] =
        if p.toNat + k = m.toNat then v.setWidth 16 else s.memRead (BitVec.ofNat 15 (p.toNat + k))) ∧ m = 32767 ∧
      v = 32767) := by
  refine ⟨⟨at_ 32767 [65], 32766, 19, 32766, .out (.lit 65), rfl, rfl, by decide, by decide, ?_, rfl, rfl⟩,
    ⟨at_ 32765 [1, 32775], 32767, 32767, 32765, .set (.reg 7) (.lit 32767), rfl, rfl, by decide, by decide, ?_, rfl, rfl⟩⟩
  · decide
  · decide
theorem witness_NoStepSetsBit15OfACell : ∃ (s t : State) (a : Word), step s = .next t ∧ 32768 ≤ (t.memRead a).toNat :=
  ⟨atIn, waiting, 1, rfl, by decide⟩
theorem witness_AtMostOneRegisterWritten :
    (∃ (s t : State) (r : Fin 8), step s = .next t ∧ t.reg r ≠ s.reg r) ∧
    (∃ (s t : State) (l : List Nat) (r : Fin 8), deliverLine l s = .next t ∧ t.reg r ≠ s.reg r) :=
  ⟨⟨at_ 0 [1, 32775, 4], _, 7, rfl, by decide⟩, ⟨waiting, _, [104], 7, rfl, by decide⟩⟩
theorem witness_OutputIsAppendedNeverRead : ∃ s : State, s.outTrace = [] ∧ after (step s) State.outTrace = some [65] :=
  ⟨at_ 0 [19, 65], rfl, by decide⟩
theorem witness_LineGivesItsCodesThenTheTerminator : ∃ (s : State) (l : List Nat) (rest : List (List Nat)),
    s.exhausted ∧ s.lines = l :: rest ∧ l = [] := ⟨{ atIn with lines := [[], [104]] }, [], _, by unfold State.exhausted; decide, rfl, rfl⟩
theorem witness_LinesAreTakenInOrder : ∃ s t : State, step s = .next t ∧ s.exhausted ∧ s.lines = t.icBuf :: t.lines :=
  ⟨{ atIn with lines := [[104, 105], []] }, _, rfl, by unfold State.exhausted; decide, rfl⟩
theorem witness_DeliveryCompletesAWaitingIn : ∃ (s : State) (r : Fin 8), s.runState = .running ∧ fetch s = .ok (.inp (.reg r)) ∧
    s.exhausted ∧ s.lines = [] := ⟨atIn, 7, rfl, rfl, by unfold State.exhausted; decide, rfl⟩
theorem witness_DeliveryQueuesALine : ∃ s : State, s.runState ≠ .waitingInput := ⟨atIn, by decide⟩
theorem witness_ImageLoad :
    (∃ b : List (BitVec 8), b.length % 2 = 1) ∧ (∃ (base : Nat) (b : List (BitVec 8)), b.length % 2 = 0 ∧ 32768 < base + b.length / 2) ∧
    (∃ (base : Nat) (b : List (BitVec 8)) (lo hi : BitVec 8), b.length % 2 = 0 ∧ base + b.length / 2 ≤ 32768 ∧ base = 32767 ∧
      b[2 * 0]? = some lo ∧ b[2 * 0 + 1]? = some hi) :=
  ⟨⟨[0x13], by decide⟩, ⟨32767, [0x15, 0x00, 0x15, 0x00], by decide⟩, ⟨32767, [0x15, 0x80], 0x15, 0x80, by decide⟩⟩
theorem witness_PatchesApplyInOrder :
    (∃ (ps : List (Nat × Nat)) (s t : State), applyPatches ps s = .next t ∧ ps = [(32767, 65535), (32775, 65536)]) ∧
    (∃ (ps : List (Nat × Nat)) (s : State) (r : Refusal), applyPatches ps s = .refused r ∧ ps = [(0, 1), (32776, 0)]) ∧
    (∃ a v : Nat, a < 32768 ∧ v < 65536 ∧ a = 32767) ∧ (∃ a : Nat, 32776 ≤ a ∧ a = 32776) ∧
    (∃ a v : Nat, a < 32768 ∧ 65536 ≤ v) :=
  ⟨⟨_, State.reset, _, rfl, rfl⟩, ⟨_, State.reset, _, rfl, rfl⟩, ⟨32767, 65535, by decide⟩, ⟨32776, by decide⟩, ⟨0, 65536, by decide⟩⟩
theorem witness_StepKeepsTheInvariant : ∃ s t : State, s.Inv ∧ step s = .next t := ⟨atIn, waiting, atIn_inv, rfl⟩
theorem witness_DeliveryKeepsTheInvariant : ∃ s : State, s.Inv ∧ s.runState = .waitingInput := ⟨waiting, waiting_inv, rfl⟩
theorem witness_ReachedStatesStopOnlyWhereTheSpecSays : ∃ s : State, Reached s ∧ s.outTrace = [65] :=
  ⟨_, .step (.boot (params := Params.defaults) (lines := []) (base := 0) (image := [0x13, 0x00, 0x41, 0x00, 0x00, 0x00])
    (patches := []) rfl) rfl, rfl⟩
theorem witness_BootResetsLoadsAndPatches :
    (∃ t, boot Params.defaults [] 32767 [0x15, 0x00] [(32775, 1)] = .next t) ∧
    ∃ b : List (BitVec 8), b.length % 2 = 0 ∧ b.length ≤ 65536 ∧ b[2 * 0]? = some 0x13 ∧ b[2 * 0 + 1]? = some 0x80 :=
  ⟨⟨_, rfl⟩, ⟨[0x13, 0x80], by decide⟩⟩

end Sys2Proof.Tests
end

section
/-! PROOFS. What decoding says of the cells it reads, so that a fetched instruction
lies inside Memory; and what a delivery can answer. -/

namespace Sys2Proof

/-- The class of an operand word keeps the word (R67). -/
@[simp] theorem raw_operandOf (o : Cell) : (operandOf o).raw = o := by
  have := o.isLt
  unfold operandOf
  split
  · exact BitVec.eq_of_toNat_eq (by simp [Operand.raw]; omega)
  · split
    · exact BitVec.eq_of_toNat_eq (by simp [Operand.raw]; omega)
    · rfl

section
variable {op : Cell} {cells rest : List Cell} {i : Instr}

theorem encode_eq_of_shape {ops : List Operand} (hop : op.toNat = i.opcode) (hops : i.operands = ops) :
    encode i = op :: ops.map Operand.raw := by
  rw [encode, hops, ← hop, BitVec.ofNat_toNat, BitVec.setWidth_eq]

theorem decodeF0_ok {j : Instr} (hop : op.toNat = j.opcode) (hops : j.operands = [])
    (h : decodeF0 j cells = .ok (i, rest)) : op :: cells = encode i ++ rest := by
  obtain ⟨rfl, rfl⟩ := Prod.mk.inj (Except.ok.inj h)
  simp [encode_eq_of_shape hop hops]

theorem decodeF1_ok {f : Operand → Instr} (hop : ∀ a, op.toNat = (f a).opcode) (hops : ∀ a, (f a).operands = [a])
    (h : decodeF1 op f cells = .ok (i, rest)) : op :: cells = encode i ++ rest := by
  unfold decodeF1 at h
  split at h
  · obtain ⟨rfl, rfl⟩ := Prod.mk.inj (Except.ok.inj h)
    simp [encode_eq_of_shape (hop _) (hops _)]
  · cases h

theorem decodeF2_ok {f : Operand → Operand → Instr} (hop : ∀ a b, op.toNat = (f a b).opcode)
    (hops : ∀ a b, (f a b).operands = [a, b]) (h : decodeF2 op f cells = .ok (i, rest)) :
    op :: cells = encode i ++ rest := by
  unfold decodeF2 at h
  split at h
  · obtain ⟨rfl, rfl⟩ := Prod.mk.inj (Except.ok.inj h)
    simp [encode_eq_of_shape (hop _ _) (hops _ _)]
  · cases h

theorem decodeF3_ok {f : Operand → Operand → Operand → Instr} (hop : ∀ a b c, op.toNat = (f a b c).opcode)
    (hops : ∀ a b c, (f a b c).operands = [a, b, c]) (h : decodeF3 op f cells = .ok (i, rest)) :
    op :: cells = encode i ++ rest := by
  unfold decodeF3 at h
  split at h
  · obtain ⟨rfl, rfl⟩ := Prod.mk.inj (Except.ok.inj h)
    simp [encode_eq_of_shape (hop _ _ _) (hops _ _ _)]
  · cases h

/-- What decodes is the encoding of the answer, then the cells left over (R60, R61). -/
theorem eq_encode_append_of_decode (h : decode cells = .ok (i, rest)) : cells = encode i ++ rest := by
  unfold decode at h
  split at h
  · cases h
  · split at h
    · exact decodeF0_ok ‹_› rfl h
    · exact decodeF2_ok (fun _ _ => ‹_›) (fun _ _ => rfl) h
    · exact decodeF1_ok (fun _ => ‹_›) (fun _ => rfl) h
    · exact decodeF1_ok (fun _ => ‹_›) (fun _ => rfl) h
    · exact decodeF3_ok (fun _ _ _ => ‹_›) (fun _ _ _ => rfl) h
    · exact decodeF3_ok (fun _ _ _ => ‹_›) (fun _ _ _ => rfl) h
    · exact decodeF1_ok (fun _ => ‹_›) (fun _ => rfl) h
    · exact decodeF2_ok (fun _ _ => ‹_›) (fun _ _ => rfl) h
    · exact decodeF2_ok (fun _ _ => ‹_›) (fun _ _ => rfl) h
    · exact decodeF3_ok (fun _ _ _ => ‹_›) (fun _ _ _ => rfl) h
    · exact decodeF3_ok (fun _ _ _ => ‹_›) (fun _ _ _ => rfl) h
    · exact decodeF3_ok (fun _ _ _ => ‹_›) (fun _ _ _ => rfl) h
    · exact decodeF3_ok (fun _ _ _ => ‹_›) (fun _ _ _ => rfl) h
    · exact decodeF3_ok (fun _ _ _ => ‹_›) (fun _ _ _ => rfl) h
    · exact decodeF2_ok (fun _ _ => ‹_›) (fun _ _ => rfl) h
    · exact decodeF2_ok (fun _ _ => ‹_›) (fun _ _ => rfl) h
    · exact decodeF2_ok (fun _ _ => ‹_›) (fun _ _ => rfl) h
    · exact decodeF1_ok (fun _ => ‹_›) (fun _ => rfl) h
    · exact decodeF0_ok ‹_› rfl h
    · exact decodeF1_ok (fun _ => ‹_›) (fun _ => rfl) h
    · exact decodeF1_ok (fun _ => ‹_›) (fun _ => rfl) h
    · exact decodeF0_ok ‹_› rfl h
    · cases h

@[simp] theorem encode_length (i : Instr) : (encode i).length = 1 + i.operands.length := by
  simp [encode, Nat.add_comm]

end
end Sys2Proof

namespace Sys2Proof.Machine

/-- A fetched instruction lies inside Memory (R50, R65). -/
theorem fetch_ok_inside {s : State} {i : Instr} (h : fetch s = .ok i) :
    s.pc.toNat + (1 + i.operands.length) ≤ 32768 := by
  unfold fetch at h
  split at h
  · cases h
  · split at h
    · cases h
    · split at h
      · cases h
      · split at h
        · rename_i n _ hn _ j rest hdec
          obtain rfl := Except.ok.inj h
          have hlen := congrArg List.length (eq_encode_append_of_decode hdec)
          simp only [Memory.cellsFrom_length, List.length_append, encode_length] at hlen
          omega
        · cases h

/-- What a delivery answers as a next state: the line at the end of the queue, and if the core waits its `in`
completed (R221, R225). -/
theorem deliverLine_next {s t : State} {l : List Nat} (h : deliverLine l s = .next t) :
    s.runState = .waitingInput ∧ resumeIn { s with lines := s.lines ++ [l] } = .next t ∨
      s.runState ≠ .waitingInput ∧ t = { s with lines := s.lines ++ [l] } := by
  unfold deliverLine at h
  split at h
  · exact .inl ⟨‹_›, h⟩
  · exact .inr ⟨‹_›, (Host.Outcome.next.inj h).symm⟩

end Sys2Proof.Machine
end

section
/-! PROOFS. Output already made (10_state.md R26): putting earlier output before a state's own commutes
with every operation, so with every instruction and with a step. -/

namespace Sys2Proof.Machine

/-- The state with `o` output before what it has. -/
def State.outputAfter (o : List Word) (s : State) : State := { s with outTrace := o ++ s.outTrace }

/-- A result with `o` output before that of its next state; a stop is as before. -/
def resultAfter (o : List Word) : Result → Result
  | .next t => .next (t.outputAfter o)
  | r => r

section
variable (o : List Word) (s : State)

@[simp] theorem State.outputAfter_stack : (s.outputAfter o).stack = s.stack := rfl
@[simp] theorem State.outputAfter_runState : (s.outputAfter o).runState = s.runState := rfl
@[simp] theorem State.outputAfter_icBuf : (s.outputAfter o).icBuf = s.icBuf := rfl
@[simp] theorem State.outputAfter_icCur : (s.outputAfter o).icCur = s.icCur := rfl
@[simp] theorem State.outputAfter_lines : (s.outputAfter o).lines = s.lines := rfl
@[simp] theorem State.outputAfter_params : (s.outputAfter o).params = s.params := rfl

theorem fetch_outputAfter : fetch (s.outputAfter o) = fetch s := fetch_with_outTrace s _

theorem resolveRead_outputAfter (a : Operand) : resolveRead (s.outputAfter o) a = resolveRead s a :=
  resolveRead_congr rfl a

theorem State.emit_outputAfter (c : Word) : (s.outputAfter o).emit c = (s.emit c).outputAfter o := by
  simp [State.emit, State.outputAfter]

theorem State.pop_outputAfter :
    (s.outputAfter o).pop = s.pop.map fun p => (p.1, p.2.outputAfter o) := by
  unfold State.pop
  rw [State.outputAfter_stack]
  cases s.stack.getLast? <;> rfl

theorem State.bufferedChar_outputAfter :
    (s.outputAfter o).bufferedChar = s.bufferedChar.map fun p => (p.1, p.2.outputAfter o) := by
  unfold State.bufferedChar
  rw [State.outputAfter_icBuf, State.outputAfter_icCur, State.outputAfter_params]
  cases s.icBuf[s.icCur]? with
  | some c => rfl
  | none =>
    by_cases hend : s.icCur = s.icBuf.length
    · rw [if_pos hend, if_pos hend]; rfl
    · rw [if_neg hend, if_neg hend]; rfl

theorem State.nextChar_outputAfter :
    (s.outputAfter o).nextChar = s.nextChar.map fun p => (p.1, p.2.outputAfter o) := by
  unfold State.nextChar
  rw [State.bufferedChar_outputAfter, State.outputAfter_lines]
  cases s.bufferedChar with
  | some r => rfl
  | none =>
    cases s.lines with
    | nil => rfl
    | cons l rest => exact State.bufferedChar_outputAfter o { s with icBuf := l, icCur := 0, lines := rest }

end

section
variable {o : List Word} {s : State}

/-- A source operand goes on alike when its continuations do. -/
theorem withSource_outputAfter {a : Operand} {k k' : Word → Result} (h : ∀ v, k' v = resultAfter o (k v)) :
    withSource (s.outputAfter o) a k' = resultAfter o (withSource s a k) := by
  unfold withSource
  rw [resolveRead_outputAfter]
  cases resolveRead s a with
  | ok v => exact h v
  | error f => rfl

/-- A destination operand goes on alike when its continuations do. -/
theorem withDest_outputAfter {d : Operand} {k k' : Fin 8 → Result} (h : ∀ i, k' i = resultAfter o (k i)) :
    withDest (s.outputAfter o) d k' = resultAfter o (withDest s d k) := by
  unfold withDest
  cases resolveWrite d with
  | ok i => exact h i
  | error f => rfl

theorem threeOperand_outputAfter (f : Word → Word → Nat) (d a b : Operand) :
    threeOperand f d a b (s.outputAfter o) = resultAfter o (threeOperand f d a b s) :=
  withDest_outputAfter fun _ => withSource_outputAfter fun _ => withSource_outputAfter fun _ => rfl

theorem jumpTo_outputAfter (a : Operand) : jumpTo a (s.outputAfter o) = resultAfter o (jumpTo a s) :=
  withSource_outputAfter fun _ => rfl

theorem execMod_outputAfter (d a b : Operand) :
    execMod d a b (s.outputAfter o) = resultAfter o (execMod d a b s) :=
  withDest_outputAfter fun _ => withSource_outputAfter fun _ => withSource_outputAfter fun y => by
    by_cases hy : y = 0
    · rw [if_pos hy, if_pos hy]; rfl
    · rw [if_neg hy, if_neg hy]; rfl

theorem execJt_outputAfter (c a : Operand) : execJt c a (s.outputAfter o) = resultAfter o (execJt c a s) :=
  withSource_outputAfter fun x => by
    by_cases hx : condHolds x
    · rw [if_pos hx, if_pos hx]; exact jumpTo_outputAfter a
    · rw [if_neg hx, if_neg hx]; rfl

theorem execJf_outputAfter (c a : Operand) : execJf c a (s.outputAfter o) = resultAfter o (execJf c a s) :=
  withSource_outputAfter fun x => by
    by_cases hx : condHolds x
    · rw [if_pos hx, if_pos hx]; rfl
    · rw [if_neg hx, if_neg hx]; exact jumpTo_outputAfter a

theorem execPop_outputAfter (d : Operand) : execPop d (s.outputAfter o) = resultAfter o (execPop d s) :=
  withDest_outputAfter fun _ => by
    rw [State.pop_outputAfter]
    cases s.pop <;> rfl

theorem execRet_outputAfter : execRet (s.outputAfter o) = resultAfter o (execRet s) := by
  unfold execRet
  rw [State.pop_outputAfter, State.outputAfter_params]
  cases s.pop with
  | some p => rfl
  | none =>
    cases s.params.retEmptyPolicy <;> rfl

theorem execOut_outputAfter (a : Operand) : execOut a (s.outputAfter o) = resultAfter o (execOut a s) :=
  withSource_outputAfter fun c => by
    rw [State.emit_outputAfter]; rfl

theorem execIn_outputAfter (d : Operand) : execIn d (s.outputAfter o) = resultAfter o (execIn d s) :=
  withDest_outputAfter fun _ => by
    rw [State.nextChar_outputAfter]
    cases s.nextChar <;> rfl

/-- Every instruction does the same after any output and appends the same to it (R26). -/
theorem exec_outputAfter (i : Instr) : exec i (s.outputAfter o) = resultAfter o (exec i s) := by
  cases i with
  | halt | noop => rfl
  | set | not | rmem => exact withDest_outputAfter fun _ => withSource_outputAfter fun _ => rfl
  | push | call => exact withSource_outputAfter fun _ => rfl
  | wmem => exact withSource_outputAfter fun _ => withSource_outputAfter fun _ => rfl
  | pop => exact execPop_outputAfter _
  | eq | gt | add | mult | and | or => exact threeOperand_outputAfter _ _ _ _
  | mod => exact execMod_outputAfter _ _ _
  | jmp => exact jumpTo_outputAfter _
  | jt => exact execJt_outputAfter _ _
  | jf => exact execJf_outputAfter _ _
  | ret => exact execRet_outputAfter
  | out => exact execOut_outputAfter _
  | inp => exact execIn_outputAfter _

theorem resumeIn_outputAfter : resumeIn (s.outputAfter o) = resultAfter o (resumeIn s) := by
  unfold resumeIn
  rw [State.nextChar_outputAfter, fetch_outputAfter]
  cases s.nextChar with
  | none => rfl
  | some p =>
    simp only [Option.map_some]
    split
    · exact execIn_outputAfter (s := { s with runState := .running }) _
    · rfl

/-- A step does the same after any output and appends the same to it (R26). -/
theorem step_outputAfter : step (s.outputAfter o) = resultAfter o (step s) := by
  unfold step
  rw [fetch_outputAfter, State.outputAfter_runState]
  cases s.runState with
  | running =>
    cases fetch s with
    | ok i => exact exec_outputAfter i
    | error f => rfl
  | waitingInput => exact resumeIn_outputAfter
  | halted | faulted => rfl

end

/-- Settles O46: putting earlier output before a state's own commutes with a step. -/
theorem outputIsAppendedNeverRead : Obligations.OutputIsAppendedNeverRead := by
  intro s o hempty
  have hearlier : { s with outTrace := o } = s.outputAfter o := by simp [State.outputAfter, hempty]
  rw [hearlier, step_outputAfter]
  cases step s <;> rfl

end Sys2Proof.Machine
end

section
/-! PROOFS. The invariant (10_state.md R16, R20, R25; 46_io.md R172): what it says of a core that runs, which each
operation keeps, and from that the invariant after every step. -/

namespace Sys2Proof.Machine

/-- What the invariant says of a core that is `Running`. -/
structure State.RunningInv (s : State) : Prop where
  running : s.runState = .running
  noCause : s.faultCause = none
  pcInRange : s.pc.toNat ≤ 32768
  stackInRange : ∀ v ∈ s.stack, v.toNat ≤ 32768
  memCanonical : Memory.wf s.mem

theorem State.Inv.runningInv {s : State} (h : s.Inv) (hr : s.runState = .running) : s.RunningInv where
  running := hr
  noCause := by
    by_contra hc
    simp [h.causeIffFaulted.1 hc] at hr
  pcInRange := h.pcInRange
  stackInRange := h.stackInRange
  memCanonical := h.memCanonical

theorem zext16_le (v : Word) : (zext16 v).toNat ≤ 32768 := by
  have := v.isLt
  simp; omega

namespace State.RunningInv

variable {s : State}

theorem inv (h : s.RunningInv) : s.Inv where
  pcInRange := h.pcInRange
  stackInRange := h.stackInRange
  memCanonical := h.memCanonical
  causeIffFaulted := by simp [h.running, h.noCause]
  waitsAtIn hw := by simp [h.running] at hw
  waitsForLine hw := by simp [h.running] at hw

/-! ### A stop -/

theorem inv_faultEntry (h : s.RunningInv) (f : FaultCause) : (s.faultEntry f).Inv where
  pcInRange := h.pcInRange
  stackInRange := h.stackInRange
  memCanonical := h.memCanonical
  causeIffFaulted := by simp
  waitsAtIn hw := by simp at hw
  waitsForLine hw := by simp at hw

theorem inv_halt (h : s.RunningInv) : s.halt.Inv where
  pcInRange := h.pcInRange
  stackInRange := h.stackInRange
  memCanonical := h.memCanonical
  causeIffFaulted := by simp [h.noCause]
  waitsAtIn hw := by simp at hw
  waitsForLine hw := by simp at hw

/-- A core at an `in` with nothing to read may begin to wait (R172). -/
theorem inv_wait (h : s.RunningInv) {i : Fin 8} (hf : fetch s = .ok (.inp (.reg i))) (hc : s.nextChar = none) :
    State.Inv { s with runState := .waitingInput } where
  pcInRange := h.pcInRange
  stackInRange := h.stackInRange
  memCanonical := h.memCanonical
  causeIffFaulted := by simp [h.noCause]
  waitsAtIn _ := ⟨i, (fetch_with_runState s _).trans hf⟩
  waitsForLine _ := (State.nextChar_none (s := s)).1 hc

/-! ### The operations -/

theorem writeReg (h : s.RunningInv) (i : Fin 8) (v : Nat) : (s.writeReg i v).RunningInv :=
  ⟨h.running, h.noCause, h.pcInRange, h.stackInRange, h.memCanonical⟩

theorem emit (h : s.RunningInv) (c : Word) : (s.emit c).RunningInv :=
  ⟨h.running, h.noCause, h.pcInRange, h.stackInRange, h.memCanonical⟩

theorem memWrite (h : s.RunningInv) (a : Word) (v : Cell) : (s.memWrite a v).RunningInv :=
  ⟨h.running, h.noCause, h.pcInRange, h.stackInRange, Memory.wf_writeCell h.memCanonical a v⟩

theorem setPc (h : s.RunningInv) {v : BitVec 16} (hv : v.toNat ≤ 32768) : (s.setPc v).RunningInv :=
  ⟨h.running, h.noCause, hv, h.stackInRange, h.memCanonical⟩

/-- An advance that stays inside Memory does not wrap (R16, R19). -/
theorem advance (h : s.RunningInv) {n : Nat} (hn : s.pc.toNat + n ≤ 32768) : (s.advance n).RunningInv :=
  h.setPc (by rw [BitVec.toNat_add, BitVec.toNat_ofNat]; omega)

theorem push (h : s.RunningInv) {v : Cell} (hv : v.toNat ≤ 32768) : (s.push v).RunningInv := by
  refine ⟨h.running, h.noCause, h.pcInRange, fun w hw => ?_, h.memCanonical⟩
  rw [State.push_stack, List.mem_append, List.mem_singleton] at hw
  obtain hw | rfl := hw
  · exact h.stackInRange w hw
  · exact hv

theorem pop (h : s.RunningInv) {s' : State} {v : Cell} (hp : s.pop = some (v, s')) :
    v.toNat ≤ 32768 ∧ s'.pc = s.pc ∧ s'.RunningInv := by
  obtain ⟨hstack, rfl⟩ := State.pop_some hp
  exact ⟨h.stackInRange v (by rw [hstack]; simp), rfl, h.running, h.noCause, h.pcInRange,
    fun w hw => h.stackInRange w (List.mem_of_mem_dropLast hw), h.memCanonical⟩

theorem nextChar (h : s.RunningInv) {s' : State} {c : Nat} (hc : s.nextChar = some (c, s')) :
    s'.pc = s.pc ∧ s'.RunningInv := by
  rw [State.nextChar_frame hc]
  exact ⟨rfl, h.running, h.noCause, h.pcInRange, h.stackInRange, h.memCanonical⟩

end State.RunningInv

section
variable {s t : State}

theorem execHalt_keeps_inv (hs : s.RunningInv) (hn : s.pc.toNat + 1 ≤ 32768) (h : execHalt s = .next t) : t.Inv := by
  obtain rfl := Host.Outcome.next.inj h
  exact (hs.advance hn).inv_halt

theorem threeOperand_keeps_inv (hs : s.RunningInv) (hn : s.pc.toNat + 4 ≤ 32768) {f : Word → Word → Nat}
    {d a b : Operand} (h : threeOperand f d a b s = .next t) : t.Inv := by
  obtain ⟨c, rfl⟩ | ⟨i, x, y, -, -, -, rfl⟩ := threeOperand_next h
  · exact hs.inv_faultEntry c
  · exact ((hs.writeReg _ _).advance hn).inv

theorem jumpTo_keeps_inv (hs : s.RunningInv) {a : Operand} (h : jumpTo a s = .next t) : t.Inv := by
  obtain ⟨c, rfl⟩ | ⟨v, -, rfl⟩ := jumpTo_next h
  · exact hs.inv_faultEntry c
  · exact (hs.setPc (zext16_le v)).inv

theorem execRet_keeps_inv (hs : s.RunningInv) (h : execRet s = .next t) : t.Inv := by
  obtain ⟨v, s', hp, rfl⟩ | ⟨-, ⟨-, rfl⟩ | ⟨-, rfl⟩⟩ := execRet_next h
  · obtain ⟨hv, -, hs'⟩ := hs.pop hp
    exact (hs'.setPc hv).inv
  · exact hs.inv_faultEntry _
  · exact hs.inv_halt

theorem execPop_keeps_inv (hs : s.RunningInv) (hn : s.pc.toNat + 2 ≤ 32768) {d : Operand}
    (h : execPop d s = .next t) : t.Inv := by
  obtain ⟨c, rfl⟩ | ⟨i, v, s', -, hp, rfl⟩ := execPop_next h
  · exact hs.inv_faultEntry c
  · obtain ⟨-, hpc, hs'⟩ := hs.pop hp
    exact ((hs'.writeReg _ _).advance (by rw [State.writeReg_pc, hpc]; exact hn)).inv

theorem execCall_keeps_inv (hs : s.RunningInv) (hn : s.pc.toNat + 2 ≤ 32768) {a : Operand}
    (h : execCall a s = .next t) : t.Inv := by
  obtain ⟨c, rfl⟩ | ⟨v, -, rfl⟩ := execCall_next h
  · exact hs.inv_faultEntry c
  · exact ((hs.push (hs.advance hn).pcInRange).setPc (zext16_le v)).inv

/-- An `in` takes a code, or begins to wait where it stands (R171, R172). -/
theorem execIn_keeps_inv (hs : s.RunningInv) {d : Operand} (hf : fetch s = .ok (.inp d))
    (h : execIn d s = .next t) : t.Inv := by
  obtain ⟨c, rfl⟩ | ⟨i, rfl, ⟨c, s', hc, rfl⟩ | ⟨hc, rfl⟩⟩ := execIn_next h
  · exact hs.inv_faultEntry c
  · obtain ⟨hpc, hs'⟩ := hs.nextChar hc
    exact ((hs'.writeReg _ _).advance (by rw [State.writeReg_pc, hpc]; exact fetch_ok_inside hf)).inv
  · exact hs.inv_wait hf hc

/-- The instruction at `pc` keeps the invariant. -/
theorem exec_keeps_inv (hs : s.RunningInv) {i : Instr} (hf : fetch s = .ok i) (h : exec i s = .next t) : t.Inv := by
  have hn : s.pc.toNat + (1 + i.operands.length) ≤ 32768 := fetch_ok_inside hf
  cases i with
  | halt => exact execHalt_keeps_inv hs hn h
  | set d a =>
    obtain ⟨c, rfl⟩ | ⟨i, v, -, -, rfl⟩ := execSet_next h
    · exact hs.inv_faultEntry c
    · exact ((hs.writeReg _ _).advance hn).inv
  | push a =>
    obtain ⟨c, rfl⟩ | ⟨v, -, rfl⟩ := execPush_next h
    · exact hs.inv_faultEntry c
    · exact ((hs.push (zext16_le v)).advance hn).inv
  | pop d => exact execPop_keeps_inv hs hn h
  | eq | gt | add | mult | and | or => exact threeOperand_keeps_inv hs hn h
  | mod d a b =>
    obtain ⟨c, rfl⟩ | ⟨i, x, y, -, -, -, -, rfl⟩ := execMod_next h
    · exact hs.inv_faultEntry c
    · exact ((hs.writeReg _ _).advance hn).inv
  | not d a =>
    obtain ⟨c, rfl⟩ | ⟨i, x, -, -, rfl⟩ := execNot_next h
    · exact hs.inv_faultEntry c
    · exact ((hs.writeReg _ _).advance hn).inv
  | rmem d a =>
    obtain ⟨c, rfl⟩ | ⟨i, v, -, -, rfl⟩ := execRmem_next h
    · exact hs.inv_faultEntry c
    · exact ((hs.writeReg _ _).advance hn).inv
  | wmem d a =>
    obtain ⟨c, rfl⟩ | ⟨m, v, -, -, rfl⟩ := execWmem_next h
    · exact hs.inv_faultEntry c
    · exact ((hs.memWrite _ _).advance hn).inv
  | jmp a => exact jumpTo_keeps_inv hs h
  | jt c a =>
    obtain ⟨f, rfl⟩ | rfl | ⟨v, -, rfl⟩ := execJt_next h
    · exact hs.inv_faultEntry f
    · exact (hs.advance hn).inv
    · exact (hs.setPc (zext16_le v)).inv
  | jf c a =>
    obtain ⟨f, rfl⟩ | rfl | ⟨v, -, rfl⟩ := execJf_next h
    · exact hs.inv_faultEntry f
    · exact (hs.advance hn).inv
    · exact (hs.setPc (zext16_le v)).inv
  | call a => exact execCall_keeps_inv hs hn h
  | ret => exact execRet_keeps_inv hs h
  | out a =>
    obtain ⟨c, rfl⟩ | ⟨v, -, rfl⟩ := execOut_next h
    · exact hs.inv_faultEntry c
    · exact ((hs.emit v).advance hn).inv
  | inp d => exact execIn_keeps_inv hs hf h
  | noop =>
    obtain rfl := Host.Outcome.next.inj h
    exact (hs.advance hn).inv

end

/-- Settles O55: a `Running` core executes the instruction at `pc` or enters its fetch fault; a waiting core has
nothing to read, so its step is stuck. -/
theorem stepKeepsTheInvariant : Obligations.StepKeepsTheInvariant := by
  intro s t hs h
  obtain ⟨hr, ⟨i, hf, h⟩ | ⟨f, -, rfl⟩⟩ | ⟨hw, h⟩ := step_next h
  · exact exec_keeps_inv (hs.runningInv hr) hf h
  · exact (hs.runningInv hr).inv_faultEntry f
  · obtain ⟨-, -, hc, -⟩ := resumeIn_next h
    exact absurd (State.nextChar_none.2 (hs.waitsForLine hw)) hc

/-- Settles O54: after reset the core is `Running` with `pc` 0, an empty stack and nothing listed in Memory. -/
theorem resetSatisfiesTheInvariant : Obligations.ResetSatisfiesTheInvariant :=
  State.RunningInv.inv ⟨rfl, rfl, Nat.zero_le _, fun _ hv => absurd hv List.not_mem_nil, State.reset_mem_wf⟩

end Sys2Proof.Machine
end

section
/-! PROOFS. Registers and the state after reset (10_state.md R12 to R15, R30). -/

namespace Sys2Proof.Machine

open Sys2Proof.Claims

/-- Settles O41. -/
theorem registerWriteThenRead : Obligations.RegisterWriteThenRead := by
  intro s i j v
  refine ⟨?_, fun hj => State.reg_writeReg_of_ne s hj.symm v, rfl⟩
  rw [State.reg_writeReg_self, BitVec.toNat_ofNat]

/-- Settles O53: every field of the state after reset by its definition, the registers one by one. -/
theorem resetState : Obligations.ResetState :=
  ⟨by decide, rfl, rfl, rfl, rfl, rfl, rfl, rfl, rfl, rfl, rfl⟩

section
variable {s t : State} {d a b : Operand}

/-- What an effect does to the registers when `d` is the only destination: nothing, or one write to the register `d`
names (R15). -/
def WritesAtMost (d : Option Operand) (s t : State) : Prop :=
  t.regs = s.regs ∨ ∃ j v, d = some (.reg j) ∧ t.regs = s.regs.set j v

theorem threeOperand_writes {f : Word → Word → Nat} (h : threeOperand f d a b s = .next t) :
    WritesAtMost (some d) s t := by
  obtain ⟨c, rfl⟩ | ⟨j, x, y, rfl, -, -, rfl⟩ := threeOperand_next h
  · exact .inl rfl
  · exact .inr ⟨j, _, rfl, rfl⟩

theorem jumpTo_writes (h : jumpTo a s = .next t) : WritesAtMost none s t := by
  obtain ⟨c, rfl⟩ | ⟨v, -, rfl⟩ := jumpTo_next h <;> exact .inl rfl

theorem execPop_writes (h : execPop d s = .next t) : WritesAtMost (some d) s t := by
  obtain ⟨c, rfl⟩ | ⟨j, v, s', rfl, hp, rfl⟩ := execPop_next h
  · exact .inl rfl
  · obtain ⟨-, rfl⟩ := State.pop_some hp
    exact .inr ⟨j, _, rfl, rfl⟩

theorem execRet_writes (h : execRet s = .next t) : WritesAtMost none s t := by
  obtain ⟨v, s', hp, rfl⟩ | ⟨-, ⟨-, rfl⟩ | ⟨-, rfl⟩⟩ := execRet_next h
  · obtain ⟨-, rfl⟩ := State.pop_some hp
    exact .inl rfl
  · exact .inl rfl
  · exact .inl rfl

theorem execIn_writes (h : execIn d s = .next t) : WritesAtMost (some d) s t := by
  obtain ⟨c, rfl⟩ | ⟨j, rfl, ⟨c, s', hc, rfl⟩ | ⟨-, rfl⟩⟩ := execIn_next h
  · exact .inl rfl
  · have hregs : s'.regs = s.regs := by rw [State.nextChar_frame hc]
    exact .inr ⟨j, _, rfl, by rw [State.advance_regs, State.writeReg_regs, hregs]⟩
  · exact .inl rfl

/-- An instruction writes no register but its destination (R15). -/
theorem exec_writes {i : Instr} (h : exec i s = .next t) : WritesAtMost (destOf i) s t := by
  cases i with
  | halt | noop =>
    obtain rfl := Host.Outcome.next.inj h
    exact .inl rfl
  | set d a =>
    obtain ⟨c, rfl⟩ | ⟨j, v, rfl, -, rfl⟩ := execSet_next h
    · exact .inl rfl
    · exact .inr ⟨j, _, rfl, rfl⟩
  | push a =>
    obtain ⟨c, rfl⟩ | ⟨v, -, rfl⟩ := execPush_next h <;> exact .inl rfl
  | pop d => exact execPop_writes h
  | eq | gt | add | mult | and | or => exact threeOperand_writes h
  | mod d a b =>
    obtain ⟨c, rfl⟩ | ⟨j, x, y, rfl, -, -, -, rfl⟩ := execMod_next h
    · exact .inl rfl
    · exact .inr ⟨j, _, rfl, rfl⟩
  | not d a =>
    obtain ⟨c, rfl⟩ | ⟨j, x, rfl, -, rfl⟩ := execNot_next h
    · exact .inl rfl
    · exact .inr ⟨j, _, rfl, rfl⟩
  | rmem d a =>
    obtain ⟨c, rfl⟩ | ⟨j, v, rfl, -, rfl⟩ := execRmem_next h
    · exact .inl rfl
    · exact .inr ⟨j, _, rfl, rfl⟩
  | wmem d a =>
    obtain ⟨c, rfl⟩ | ⟨m, v, -, -, rfl⟩ := execWmem_next h <;> exact .inl rfl
  | jmp a => exact jumpTo_writes h
  | jt c a =>
    obtain ⟨f, rfl⟩ | rfl | ⟨v, -, rfl⟩ := execJt_next h <;> exact .inl rfl
  | jf c a =>
    obtain ⟨f, rfl⟩ | rfl | ⟨v, -, rfl⟩ := execJf_next h <;> exact .inl rfl
  | call a =>
    obtain ⟨c, rfl⟩ | ⟨v, -, rfl⟩ := execCall_next h <;> exact .inl rfl
  | ret => exact execRet_writes h
  | out a =>
    obtain ⟨c, rfl⟩ | ⟨v, -, rfl⟩ := execOut_next h <;> exact .inl rfl
  | inp d => exact execIn_writes h

/-- The destination operand of the instruction at `pc`, if a fetch there succeeds. -/
def destAtPc (s : State) : Option Operand :=
  match fetch s with
  | .ok i => destOf i
  | .error _ => none

theorem destAtPc_of_fetch {i : Instr} (h : fetch s = .ok i) : destAtPc s = destOf i := by
  rw [destAtPc, h]

theorem destAtPc_eq_some {o : Operand} (h : destAtPc s = some o) : ∃ i, fetch s = .ok i ∧ destOf i = some o := by
  unfold destAtPc at h
  split at h
  · exact ⟨_, ‹_›, h⟩
  · cases h

/-- The completion of a wait writes no register but the destination of the `in` at `pc` (R225). -/
theorem resumeIn_writes (h : resumeIn s = .next t) : WritesAtMost (destAtPc s) s t := by
  obtain ⟨j, hf, -, h⟩ := resumeIn_next h
  rw [destAtPc_of_fetch hf]
  exact execIn_writes (s := { s with runState := .running }) h

/-- A step writes no register but the destination of the instruction at `pc` (R15). -/
theorem step_writes (h : step s = .next t) : WritesAtMost (destAtPc s) s t := by
  obtain ⟨-, ⟨i, hf, h⟩ | ⟨f, -, rfl⟩⟩ | ⟨-, h⟩ := step_next h
  · rw [destAtPc_of_fetch hf]
    exact exec_writes h
  · exact .inl rfl
  · exact resumeIn_writes h

/-- A delivery writes no register but the destination of the instruction at `pc` (R15, R225). -/
theorem deliverLine_writes {l : List Nat} (h : deliverLine l s = .next t) : WritesAtMost (destAtPc s) s t := by
  obtain ⟨-, h⟩ | ⟨-, rfl⟩ := deliverLine_next h
  · have hdest : destAtPc { s with lines := s.lines ++ [l] } = destAtPc s := by
      rw [destAtPc, fetch_with_lines, destAtPc]
    rw [← hdest]
    exact resumeIn_writes (s := { s with lines := s.lines ++ [l] }) h
  · exact .inl rfl

/-- A register that differs is the one destination. -/
theorem WritesAtMost.dest_of_reg_ne {d : Option Operand} (hw : WritesAtMost d s t) {r : Fin 8}
    (hr : t.reg r ≠ s.reg r) : d = some (.reg r) := by
  obtain hregs | ⟨j, v, hd, hregs⟩ := hw
  · exact absurd (by rw [State.reg, State.reg, hregs]) hr
  · have hj : j = r := by
      by_contra hj
      refine hr ?_
      simp [State.reg, hregs, Fin.val_ne_of_ne hj]
    rw [hd, hj]

end

/-- Settles O45: a step or a delivery writes at most the destination of the instruction at `pc`. -/
theorem atMostOneRegisterWritten : Obligations.AtMostOneRegisterWritten := by
  intro s t h r hr
  have hw : WritesAtMost (destAtPc s) s t := by
    obtain h | ⟨l, h⟩ := h
    · exact step_writes h
    · exact deliverLine_writes h
  exact destAtPc_eq_some (hw.dest_of_reg_ne hr)

end Sys2Proof.Machine
end

section
/-! PROOFS. Memory by cells (20_memory.md R43 to R45): what a cell reads after a store, and that `wmem` alone stores,
a Word each time. -/

namespace Sys2Proof.Machine

/-! ### A cell after a store -/

@[simp] theorem Memory.readCell_writeCell_self (m : Memory) (a : Word) (v : Cell) :
    Memory.readCell (Memory.writeCell m a v) a = v := by
  simp [Memory.readCell, Memory.writeCell, Memory.readByte_writeByte, cellOfBytes_bytes]

theorem Memory.readCell_writeCell_of_ne (m : Memory) {a b : Word} (h : b ≠ a) (v : Cell) :
    Memory.readCell (Memory.writeCell m a v) b = Memory.readCell m b := by
  have hne : b.toNat ≠ a.toNat := fun hc => h (BitVec.eq_of_toNat_eq hc)
  unfold Memory.readCell
  rw [Memory.readByte_writeCell_of_ne m a v (by omega), Memory.readByte_writeCell_of_ne m a v (by omega)]

@[simp] theorem State.memRead_memWrite_self (s : State) (a : Word) (v : Cell) : (s.memWrite a v).memRead a = v :=
  Memory.readCell_writeCell_self s.mem a v

theorem State.memRead_memWrite_of_ne (s : State) {a b : Word} (h : b ≠ a) (v : Cell) :
    (s.memWrite a v).memRead b = s.memRead b :=
  Memory.readCell_writeCell_of_ne s.mem h v

/-- A number below 32768 is the address it names. -/
theorem address_toNat {n : Nat} (h : n < 32768) : (BitVec.ofNat 15 n).toNat = n := by
  rw [BitVec.toNat_ofNat, Nat.mod_eq_of_lt h]

/-- What the cell at an address of Memory holds after a store (R43, R44). -/
theorem State.memRead_memWrite_ofNat (s : State) (m : Word) (v : Cell) {n : Nat} (hn : n < 32768) :
    (s.memWrite m v).memRead (BitVec.ofNat 15 n) = if n = m.toNat then v else s.memRead (BitVec.ofNat 15 n) := by
  split
  · rename_i h
    rw [h, BitVec.ofNat_toNat, BitVec.setWidth_eq, State.memRead_memWrite_self]
  · rename_i h
    refine State.memRead_memWrite_of_ne s (fun hc => h ?_) v
    rw [← hc, address_toNat hn]

/-- Settles O42: a cell after a store, and the canonical form by bytes. -/
theorem memWriteThenRead : Obligations.MemWriteThenRead := fun s a _ v =>
  ⟨s.memRead_memWrite_self a v, fun hb => s.memRead_memWrite_of_ne hb v, rfl, fun hwf => Memory.wf_writeCell hwf a v⟩

/-! ### What a step stores -/

/-- A result whose next state, if it is one, has the Memory of `s`. -/
def KeepsMem (s : State) (r : Result) : Prop := ∀ t, r = .next t → t.mem = s.mem

section
variable {s t : State}

theorem keepsMem_next (h : t.mem = s.mem) : KeepsMem s (.next t) := by
  rintro _ ⟨⟩
  exact h

theorem raise_keepsMem (f : FaultCause) : KeepsMem s (raise f s) := keepsMem_next rfl

theorem withSource_keepsMem {o : Operand} {k : Word → Result} (h : ∀ v, KeepsMem s (k v)) :
    KeepsMem s (withSource s o k) := by
  intro t ht
  obtain rfl | ⟨v, -, hv⟩ := withSource_next ht
  · rfl
  · exact h v t hv

theorem withDest_keepsMem {o : Operand} {k : Fin 8 → Result} (h : ∀ i, KeepsMem s (k i)) :
    KeepsMem s (withDest s o k) := by
  intro t ht
  obtain rfl | rfl | ⟨i, -, hi⟩ := withDest_next ht
  · rfl
  · rfl
  · exact h i t hi

theorem threeOperand_keepsMem (f : Word → Word → Nat) (d a b : Operand) : KeepsMem s (threeOperand f d a b s) :=
  withDest_keepsMem fun _ => withSource_keepsMem fun _ => withSource_keepsMem fun _ => keepsMem_next rfl

theorem jumpTo_keepsMem (a : Operand) : KeepsMem s (jumpTo a s) :=
  withSource_keepsMem fun _ => keepsMem_next rfl

theorem execMod_keepsMem (d a b : Operand) : KeepsMem s (execMod d a b s) :=
  withDest_keepsMem fun _ => withSource_keepsMem fun _ => withSource_keepsMem fun _ => by
    split
    · exact raise_keepsMem _
    · exact keepsMem_next rfl

theorem execJt_keepsMem (c a : Operand) : KeepsMem s (execJt c a s) :=
  withSource_keepsMem fun _ => by
    split
    · exact jumpTo_keepsMem a
    · exact keepsMem_next rfl

theorem execJf_keepsMem (c a : Operand) : KeepsMem s (execJf c a s) :=
  withSource_keepsMem fun _ => by
    split
    · exact keepsMem_next rfl
    · exact jumpTo_keepsMem a

theorem execPop_keepsMem (d : Operand) : KeepsMem s (execPop d s) := by
  intro t h
  obtain ⟨c, rfl⟩ | ⟨i, v, s', -, hp, rfl⟩ := execPop_next h
  · rfl
  · obtain ⟨-, rfl⟩ := State.pop_some hp
    rfl

theorem execRet_keepsMem : KeepsMem s (execRet s) := by
  intro t h
  obtain ⟨v, s', hp, rfl⟩ | ⟨-, ⟨-, rfl⟩ | ⟨-, rfl⟩⟩ := execRet_next h
  · obtain ⟨-, rfl⟩ := State.pop_some hp
    rfl
  · rfl
  · rfl

theorem execIn_keepsMem (d : Operand) : KeepsMem s (execIn d s) := by
  intro t h
  obtain ⟨c, rfl⟩ | ⟨i, -, ⟨c, s', hc, rfl⟩ | ⟨-, rfl⟩⟩ := execIn_next h
  · rfl
  · rw [State.advance_mem, State.writeReg_mem, State.nextChar_frame hc]
  · rfl

/-- No instruction but `wmem` stores (R42). -/
theorem exec_keepsMem {i : Instr} (hi : ∀ d a, i ≠ .wmem d a) : KeepsMem s (exec i s) := by
  cases i with
  | wmem d a => exact absurd rfl (hi d a)
  | halt | noop => exact keepsMem_next rfl
  | set | not | rmem => exact withDest_keepsMem fun _ => withSource_keepsMem fun _ => keepsMem_next rfl
  | push | call | out => exact withSource_keepsMem fun _ => keepsMem_next rfl
  | eq | gt | add | mult | and | or => exact threeOperand_keepsMem _ _ _ _
  | mod => exact execMod_keepsMem _ _ _
  | pop => exact execPop_keepsMem _
  | jmp => exact jumpTo_keepsMem _
  | jt => exact execJt_keepsMem _ _
  | jf => exact execJf_keepsMem _ _
  | ret => exact execRet_keepsMem
  | inp => exact execIn_keepsMem _

/-- What an effect does to Memory when it can store only Words: nothing, or one store with bit 15 clear (R45). -/
def StoresAtMostAWord (s t : State) : Prop :=
  t.mem = s.mem ∨ ∃ m v : Word, t.mem = Memory.writeCell s.mem m (zext16 v)

theorem exec_stores {i : Instr} (h : exec i s = .next t) : StoresAtMostAWord s t := by
  by_cases hi : ∃ d a, i = .wmem d a
  · obtain ⟨d, a, rfl⟩ := hi
    obtain ⟨c, rfl⟩ | ⟨m, v, -, -, rfl⟩ := execWmem_next h
    · exact .inl rfl
    · exact .inr ⟨m, v, rfl⟩
  · exact .inl (exec_keepsMem (fun d a hda => hi ⟨d, a, hda⟩) t h)

theorem resumeIn_keepsMem : KeepsMem s (resumeIn s) := by
  intro t h
  obtain ⟨i, -, -, h⟩ := resumeIn_next h
  exact execIn_keepsMem (s := { s with runState := .running }) _ t h

/-- A step stores at most one Word (R45). -/
theorem step_stores (h : step s = .next t) : StoresAtMostAWord s t := by
  obtain ⟨-, ⟨i, -, h⟩ | ⟨f, -, rfl⟩⟩ | ⟨-, h⟩ := step_next h
  · exact exec_stores h
  · exact .inl rfl
  · exact .inl (resumeIn_keepsMem t h)

theorem zext16_lt (v : Word) : (zext16 v).toNat < 32768 := by
  have := v.isLt
  simp; omega

/-- A store of Words makes no cell with bit 15 set. -/
theorem StoresAtMostAWord.memRead_eq (h : StoresAtMostAWord s t) {a : Word} (ha : 32768 ≤ (t.memRead a).toNat) :
    t.memRead a = s.memRead a := by
  obtain hmem | ⟨m, v, hmem⟩ := h
  · rw [State.memRead, State.memRead, hmem]
  · rw [State.memRead, hmem] at ha ⊢
    refine Memory.readCell_writeCell_of_ne _ (fun hm => ?_) _
    rw [hm, Memory.readCell_writeCell_self] at ha
    exact absurd (zext16_lt v) (Nat.not_lt.2 ha)

end

/-- Settles O44: a step stores at most one Word, whose bit 15 is clear. -/
theorem noStepSetsBit15OfACell : Obligations.NoStepSetsBit15OfACell := fun _ _ _ h ha =>
  (step_stores h).memRead_eq ha

end Sys2Proof.Machine
end

section
/-! PROOFS. Decoding forwards (30_encoding.md R61, R63, R65): what a known opcode word with its operand words, and the
encoding of a well-formed instruction, decode to. -/

namespace Sys2Proof

/-- The class of a well-formed operand's word is that operand (R67). -/
theorem operandOf_raw {o : Operand} (h : o.wf = true) : operandOf o.raw = o := by
  cases o with
  | lit v =>
    have hv := v.isLt
    have hraw : (Operand.lit v).raw.toNat = v.toNat := by simp [Operand.raw]; omega
    rw [operandOf, if_pos (by omega)]
    exact congrArg Operand.lit (BitVec.eq_of_toNat_eq (by rw [BitVec.toNat_setWidth, hraw]; omega))
  | reg i =>
    have hraw : (Operand.reg i).raw.toNat = 32768 + i.val := by simp [Operand.raw]; omega
    rw [operandOf, if_neg (by omega), if_pos (by omega)]
    exact congrArg Operand.reg (Fin.ext (by simp only [hraw]; omega))
  | invalid c =>
    have hc : 32776 ≤ c.toNat := of_decide_eq_true h
    rw [Operand.raw, operandOf, if_neg (by omega), if_neg (by omega)]

/-- The operand words of a well-formed instruction are of the classes of its operands. -/
theorem Instr.map_operandOf_raw {i : Instr} (h : i.wf = true) :
    (i.operands.map Operand.raw).map operandOf = i.operands := by
  rw [List.map_map]
  exact (List.map_congr_left fun o ho => operandOf_raw (List.all_eq_true.1 h o ho)).trans (List.map_id _)

/-- The encoding of a well-formed instruction decodes to it, whatever follows (R60, R61). -/
theorem decode_encode_append {i : Instr} (h : i.wf = true) (rest : List Cell) :
    decode (encode i ++ rest) = .ok (i, rest) := by
  have hops := Instr.map_operandOf_raw h
  cases i with
  | halt | ret | noop => rfl
  | _ =>
    simp only [Instr.operands, List.map_cons, List.map_nil, List.cons.injEq, and_true] at hops
    simp [encode, decode, Instr.opcode, Instr.operands, decodeF1, decodeF2, decodeF3, hops]

/-- The arity of an instruction's opcode is the number of its operands (R63). -/
theorem arity_of_opcode {op : Cell} {i : Instr} (h : op.toNat = i.opcode) : arity op = some i.operands.length := by
  rw [arity, h]
  cases i <;> rfl

/-- An instruction answered for the opcode word `op` and the cells after it, of which it takes `n` as operands. -/
def DecodesTo (r : Except DecodeError (Instr × List Cell)) (op : Cell) (n : Nat) (cells : List Cell) : Prop :=
  ∃ i, r = .ok (i, cells.drop n) ∧ i.opcode = op.toNat ∧ i.operands = (cells.take n).map operandOf

section
variable {op : Cell} {cells : List Cell} {n : Nat} (ha : arity op = some n) (hn : n ≤ cells.length)
include ha

theorem eq_length_of_arity {i : Instr} {ops : List Operand} (hop : op.toNat = i.opcode) (hops : i.operands = ops) :
    n = ops.length := by
  rw [← hops]
  exact Option.some.inj (ha.symm.trans (arity_of_opcode hop))

theorem decodeF0_decodesTo {i : Instr} (hop : op.toNat = i.opcode) (hops : i.operands = []) :
    DecodesTo (decodeF0 i cells) op n cells := by
  obtain rfl := eq_length_of_arity ha hop hops
  exact ⟨i, rfl, hop.symm, hops⟩

include hn

theorem decodeF1_decodesTo {f : Operand → Instr} (hop : ∀ a, op.toNat = (f a).opcode)
    (hops : ∀ a, (f a).operands = [a]) : DecodesTo (decodeF1 op f cells) op n cells := by
  obtain rfl := eq_length_of_arity ha (hop (.lit 0)) (hops _)
  match cells, hn with
  | _ :: _, _ => exact ⟨_, rfl, (hop _).symm, hops _⟩

theorem decodeF2_decodesTo {f : Operand → Operand → Instr} (hop : ∀ a b, op.toNat = (f a b).opcode)
    (hops : ∀ a b, (f a b).operands = [a, b]) : DecodesTo (decodeF2 op f cells) op n cells := by
  obtain rfl := eq_length_of_arity ha (hop (.lit 0) (.lit 0)) (hops _ _)
  match cells, hn with
  | _ :: _ :: _, _ => exact ⟨_, rfl, (hop _ _).symm, hops _ _⟩

theorem decodeF3_decodesTo {f : Operand → Operand → Operand → Instr} (hop : ∀ a b c, op.toNat = (f a b c).opcode)
    (hops : ∀ a b c, (f a b c).operands = [a, b, c]) : DecodesTo (decodeF3 op f cells) op n cells := by
  obtain rfl := eq_length_of_arity ha (hop (.lit 0) (.lit 0) (.lit 0)) (hops _ _ _)
  match cells, hn with
  | _ :: _ :: _ :: _, _ => exact ⟨_, rfl, (hop _ _ _).symm, hops _ _ _⟩

/-- A known opcode word with all its operand words decodes (R63, R74). -/
theorem decode_decodesTo : DecodesTo (decode (op :: cells)) op n cells := by
  have hknown : ¬ 21 < op.toNat := fun h => by simp [Machine.arity_eq_none.2 h] at ha
  dsimp only [decode]
  split
  · exact decodeF0_decodesTo ha ‹_› rfl
  · exact decodeF2_decodesTo ha hn (fun _ _ => ‹_›) fun _ _ => rfl
  · exact decodeF1_decodesTo ha hn (fun _ => ‹_›) fun _ => rfl
  · exact decodeF1_decodesTo ha hn (fun _ => ‹_›) fun _ => rfl
  · exact decodeF3_decodesTo ha hn (fun _ _ _ => ‹_›) fun _ _ _ => rfl
  · exact decodeF3_decodesTo ha hn (fun _ _ _ => ‹_›) fun _ _ _ => rfl
  · exact decodeF1_decodesTo ha hn (fun _ => ‹_›) fun _ => rfl
  · exact decodeF2_decodesTo ha hn (fun _ _ => ‹_›) fun _ _ => rfl
  · exact decodeF2_decodesTo ha hn (fun _ _ => ‹_›) fun _ _ => rfl
  · exact decodeF3_decodesTo ha hn (fun _ _ _ => ‹_›) fun _ _ _ => rfl
  · exact decodeF3_decodesTo ha hn (fun _ _ _ => ‹_›) fun _ _ _ => rfl
  · exact decodeF3_decodesTo ha hn (fun _ _ _ => ‹_›) fun _ _ _ => rfl
  · exact decodeF3_decodesTo ha hn (fun _ _ _ => ‹_›) fun _ _ _ => rfl
  · exact decodeF3_decodesTo ha hn (fun _ _ _ => ‹_›) fun _ _ _ => rfl
  · exact decodeF2_decodesTo ha hn (fun _ _ => ‹_›) fun _ _ => rfl
  · exact decodeF2_decodesTo ha hn (fun _ _ => ‹_›) fun _ _ => rfl
  · exact decodeF2_decodesTo ha hn (fun _ _ => ‹_›) fun _ _ => rfl
  · exact decodeF1_decodesTo ha hn (fun _ => ‹_›) fun _ => rfl
  · exact decodeF0_decodesTo ha ‹_› rfl
  · exact decodeF1_decodesTo ha hn (fun _ => ‹_›) fun _ => rfl
  · exact decodeF1_decodesTo ha hn (fun _ => ‹_›) fun _ => rfl
  · exact decodeF0_decodesTo ha ‹_› rfl
  · simp only [imp_false] at *
    omega

end
end Sys2Proof
end

section
/-! PROOFS. Fetch (20_memory.md R50, R54; 30_encoding.md R65): its answer in each of its branches, and the instruction
whose cells stand at `pc`. -/

namespace Sys2Proof.Machine

theorem Memory.getElem_cellsFrom (m : Memory) (a n k : Nat) (h : k < (Memory.cellsFrom m a n).length) :
    (Memory.cellsFrom m a n)[k] = Memory.readCell m (BitVec.ofNat 15 (a + k)) := by
  induction n generalizing a k with
  | zero => exact absurd h (Nat.not_lt_zero k)
  | succ n ih =>
    cases k with
    | zero => rfl
    | succ k =>
      have hk : k < (Memory.cellsFrom m (a + 1) n).length := by simpa [Memory.cellsFrom] using h
      rw [← Nat.add_assoc, Nat.add_right_comm]
      exact ih (a + 1) k hk

section
variable {s : State}

theorem fetch_of_pc_outside (hpc : 32767 < s.pc.toNat) : fetch s = .error .fetchOutOfRange := by
  rw [fetch, if_pos hpc]

theorem fetch_of_arity_none (hpc : s.pc.toNat ≤ 32767)
    (ha : arity (s.memRead (BitVec.ofNat 15 s.pc.toNat)) = none) : fetch s = .error .unknownOpcode := by
  rw [fetch, if_neg (by omega), ha]

theorem fetch_of_operands_outside {n : Nat} (hpc : s.pc.toNat ≤ 32767)
    (ha : arity (s.memRead (BitVec.ofNat 15 s.pc.toNat)) = some n) (hn : 32767 < s.pc.toNat + n) :
    fetch s = .error .fetchOutOfRange := by
  rw [fetch, if_neg (by omega), ha]
  exact if_pos hn

theorem fetch_of_decode {n : Nat} {i : Instr} {rest : List Cell}
    (ha : arity (s.memRead (BitVec.ofNat 15 s.pc.toNat)) = some n) (hn : s.pc.toNat + n ≤ 32767)
    (hd : decode (Memory.cellsFrom s.mem s.pc.toNat (1 + n)) = .ok (i, rest)) : fetch s = .ok i := by
  rw [fetch, if_neg (by omega), ha]
  dsimp only
  rw [if_neg (by omega), hd]

/-- A known opcode word whose operand words lie inside Memory is fetched (R65). -/
theorem fetch_of_inside {n : Nat} (ha : arity (s.memRead (BitVec.ofNat 15 s.pc.toNat)) = some n)
    (hn : s.pc.toNat + n ≤ 32767) : ∃ i, fetch s = .ok i := by
  obtain ⟨i, hd, -, -⟩ := decode_decodesTo (cells := Memory.cellsFrom s.mem (s.pc.toNat + 1) n) ha (by simp)
  exact ⟨i, fetch_of_decode ha hn (by rw [Nat.add_comm 1 n]; exact hd)⟩

/-- The instruction whose cells stand at `pc`, inside Memory, is fetched (R60, R65). -/
theorem fetch_of_encode {i : Instr} (hwf : i.wf = true) (hin : s.pc.toNat + (1 + i.operands.length) ≤ 32768)
    (hcells : ∀ k (h : k < (encode i).length), s.memRead (BitVec.ofNat 15 (s.pc.toNat + k)) = (encode i)[k]) :
    fetch s = .ok i := by
  have hop : arity (s.memRead (BitVec.ofNat 15 s.pc.toNat)) = some i.operands.length := by
    have hopcode : (BitVec.ofNat 16 i.opcode).toNat = i.opcode := by cases i <;> rfl
    have hword : s.memRead (BitVec.ofNat 15 s.pc.toNat) = BitVec.ofNat 16 i.opcode := hcells 0 (by simp)
    rw [hword]
    exact arity_of_opcode hopcode
  have hmem : Memory.cellsFrom s.mem s.pc.toNat (1 + i.operands.length) = encode i :=
    List.ext_getElem (by simp) fun k _ hk => (Memory.getElem_cellsFrom _ _ _ _ _).trans (hcells k hk)
  refine fetch_of_decode (rest := []) hop (by omega) ?_
  rw [hmem, ← List.append_nil (encode i)]
  exact decode_encode_append hwf []

end

/-- Settles O8: the branches of a fetch are a `pc` past the last cell, an unknown opcode word, operand words past the
last cell, and an instruction inside Memory. -/
theorem fetchFaultsExactly : Obligations.FetchFaultsExactly := by
  intro s
  obtain hpc | hpc := Nat.lt_or_ge 32767 s.pc.toNat
  · simp [-BitVec.ofNat_toNat, fetch_of_pc_outside hpc, hpc]
  · cases ha : arity (s.memRead (BitVec.ofNat 15 s.pc.toNat)) with
    | none =>
      have hop := arity_eq_none.1 ha
      simp [-BitVec.ofNat_toNat, fetch_of_arity_none hpc ha, hpc, hop]
    | some n =>
      have hop : ¬ 21 < (s.memRead (BitVec.ofNat 15 s.pc.toNat)).toNat := fun h =>
        Option.some_ne_none n (ha.symm.trans (arity_eq_none.2 h))
      obtain hn | hn := Nat.lt_or_ge 32767 (s.pc.toNat + n)
      · simp [-BitVec.ofNat_toNat, fetch_of_operands_outside hpc ha hn, hn, hop]
      · obtain ⟨i, hf⟩ := fetch_of_inside ha hn
        simp [-BitVec.ofNat_toNat, hf, hpc, hn, hop]

/-- A store by `wmem` (R151). -/
theorem exec_wmem {s : State} {d a : Operand} {m v : Word} (hd : resolveRead s d = .ok m)
    (ha : resolveRead s a = .ok v) : exec (.wmem d a) s = .next ((s.memWrite m (zext16 v)).advance 3) :=
  (withSource_ok hd _).trans (withSource_ok ha _)

/-- Settles O43: after the store the cells of `i` stand in Memory from `p` on. -/
theorem storeIsSeenByTheNextFetch : Obligations.StoreIsSeenByTheNextFetch := by
  intro s d a m v p i hd ha hwf hin hcells
  refine ⟨_, exec_wmem hd ha, ?_⟩
  have hp : (p.setWidth 16).toNat = p.toNat := by simp; omega
  refine fetch_of_encode hwf (by rw [hp]; exact hin) fun k hk => ?_
  have hlt : p.toNat + k < 32768 := by rw [encode_length] at hk; omega
  rw [hp, hcells k hk]
  exact State.memRead_memWrite_ofNat s m (zext16 v) hlt

end Sys2Proof.Machine
end

section
/-! PROOFS. The host's writes before the first step (20_memory.md R56, R57): an image's bytes as cells, the cells in
Memory, and the patches in list order. -/

namespace Sys2Proof

/-- The cell of two bytes is their number (R46). -/
@[simp] theorem cellOfBytes_toNat (lo hi : BitVec 8) : (cellOfBytes lo hi).toNat = lo.toNat + 256 * hi.toNat := by
  rw [cellOfBytes, BitVec.toNat_ofNat]
  omega

/-- Bytes make whole cells exactly when their count is even (R56). -/
theorem cellsOfBytes_eq_none {b : List (BitVec 8)} : cellsOfBytes b = none ↔ b.length % 2 = 1 := by
  induction b using cellsOfBytes.induct with
  | case1 => simp [cellsOfBytes]
  | case2 => simp [cellsOfBytes]
  | case3 lo hi rest ih =>
    simp only [cellsOfBytes, Option.map_eq_none_iff, ih, List.length_cons]
    omega

/-- Each two bytes make one cell (R46). -/
theorem length_of_cellsOfBytes {b : List (BitVec 8)} {cs : List Cell} (h : cellsOfBytes b = some cs) :
    b.length = 2 * cs.length := by
  induction b using cellsOfBytes.induct generalizing cs with
  | case1 =>
    obtain rfl := Option.some.inj h
    rfl
  | case2 => cases h
  | case3 lo hi rest ih =>
    obtain ⟨ds, hds, rfl⟩ := Option.map_eq_some_iff.1 h
    simp [ih hds, Nat.mul_add]

/-- Cell `i` is made of the bytes `2i` and `2i + 1` (R46, R56). -/
theorem getElem?_of_cellsOfBytes {b : List (BitVec 8)} {cs : List Cell} (h : cellsOfBytes b = some cs) {i : Nat}
    {lo hi : BitVec 8} (hlo : b[2 * i]? = some lo) (hhi : b[2 * i + 1]? = some hi) :
    cs[i]? = some (cellOfBytes lo hi) := by
  induction b using cellsOfBytes.induct generalizing cs i with
  | case1 => simp at hlo
  | case2 => cases h
  | case3 lo' hi' rest ih =>
    obtain ⟨ds, hds, rfl⟩ := Option.map_eq_some_iff.1 h
    cases i with
    | zero =>
      obtain rfl := Option.some.inj hlo
      obtain rfl := Option.some.inj hhi
      rfl
    | succ i => exact ih hds hlo hhi

end Sys2Proof

namespace Sys2Proof.Machine

section
variable {base : Nat} {cs : List Cell}

/-- Storing cells changes no cell outside their range. -/
theorem Memory.readCell_storeCells_of_outside (m : Memory) (hfit : base + cs.length ≤ 32768) {a : Word}
    (ha : a.toNat < base ∨ base + cs.length ≤ a.toNat) :
    Memory.readCell (Memory.storeCells m base cs) a = Memory.readCell m a := by
  induction cs generalizing m base with
  | nil => rfl
  | cons c cs ih =>
    rw [List.length_cons] at hfit ha
    have hne : a ≠ BitVec.ofNat 15 base := fun hc => by
      rw [hc, address_toNat (by omega)] at ha
      omega
    exact (ih _ (by omega) (by omega)).trans (Memory.readCell_writeCell_of_ne m hne c)

/-- Storing cells puts each at its place. -/
theorem Memory.readCell_storeCells (m : Memory) (hfit : base + cs.length ≤ 32768) {i : Nat} {c : Cell}
    (hc : cs[i]? = some c) : Memory.readCell (Memory.storeCells m base cs) (BitVec.ofNat 15 (base + i)) = c := by
  induction cs generalizing m base i with
  | nil => cases hc
  | cons d cs ih =>
    rw [List.length_cons] at hfit
    cases i with
    | zero =>
      obtain rfl := Option.some.inj hc
      have hbase : (BitVec.ofNat 15 base).toNat = base := address_toNat (by omega)
      have hlater := Memory.readCell_storeCells_of_outside (base := base + 1) (cs := cs)
        (Memory.writeCell m (BitVec.ofNat 15 base) d) (by omega) (.inl (by rw [hbase]; omega))
      exact hlater.trans (Memory.readCell_writeCell_self m _ d)
    | succ i =>
      rw [Nat.add_comm i, ← Nat.add_assoc]
      exact ih _ (by omega) hc

/-- The image load, when it is not refused: the cells of the bytes stored from `base` on (R56). -/
theorem loadImage_of_cells {b : List (BitVec 8)} (hcs : cellsOfBytes b = some cs) (hfit : base + cs.length ≤ 32768)
    (s : State) : loadImage base b s = .next { s with mem := Memory.storeCells s.mem base cs } := by
  rw [loadImage, hcs]
  exact if_neg (by omega)

end

/-- Settles O51: an odd byte count makes no cells; else half as many cells as bytes, which fit or do not. -/
theorem imageLoad : Obligations.ImageLoad := by
  intro base b s
  cases hcs : cellsOfBytes b with
  | none =>
    have hodd := cellsOfBytes_eq_none.1 hcs
    refine ⟨fun _ => by rw [loadImage, hcs], ?_, ?_⟩
    · omega
    · omega
  | some cs =>
    have hlen := length_of_cellsOfBytes hcs
    have hhalf : b.length / 2 = cs.length := by omega
    rw [hhalf]
    refine ⟨by omega, fun _ hlong => ?_, fun _ hfit => ?_⟩
    · rw [loadImage, hcs]
      exact if_pos hlong
    · refine ⟨_, loadImage_of_cells hcs hfit s, rfl, fun i lo hi hlo hhi => ?_, fun a ha => ?_⟩
      · have hcell := Memory.readCell_storeCells s.mem hfit (getElem?_of_cellsOfBytes hcs hlo hhi)
        rw [State.memRead, hcell, cellOfBytes_toNat]
      · exact Memory.readCell_storeCells_of_outside s.mem hfit ha

/-! ### Patches -/

/-- A list of patches after one that is done goes on from the state that one leaves. -/
theorem applyPatches_cons_of_next {a v : Nat} {s t : State} (h : applyPatch a v s = .next t) (ps : List (Nat × Nat)) :
    applyPatches ((a, v) :: ps) s = applyPatches ps t := by
  rw [applyPatches, h]

theorem applyPatches_cons_of_refused {a v : Nat} {s : State} {r : Refusal} (h : applyPatch a v s = .refused r)
    (ps : List (Nat × Nat)) : applyPatches ((a, v) :: ps) s = .refused r := by
  rw [applyPatches, h]

/-- A patch is done or refused; it never stops with a fault (R57). -/
theorem applyPatch_cases (a v : Nat) (s : State) :
    (∃ t, applyPatch a v s = .next t) ∨ ∃ r, applyPatch a v s = .refused r := by
  unfold applyPatch
  split
  · split
    · exact .inl ⟨_, rfl⟩
    · exact .inr ⟨_, rfl⟩
  · split
    · exact .inl ⟨_, rfl⟩
    · exact .inr ⟨_, rfl⟩

theorem applyPatches_singleton (a v : Nat) (s : State) : applyPatches [(a, v)] s = applyPatch a v s := by
  obtain ⟨t, h⟩ | ⟨r, h⟩ := applyPatch_cases a v s
  · rw [applyPatches_cons_of_next h, h, applyPatches]
  · rw [applyPatches_cons_of_refused h, h]

theorem applyPatches_append_of_next {ps : List (Nat × Nat)} {s t : State} (h : applyPatches ps s = .next t)
    (qs : List (Nat × Nat)) : applyPatches (ps ++ qs) s = applyPatches qs t := by
  induction ps generalizing s with
  | nil =>
    obtain rfl := Host.Outcome.next.inj h
    rfl
  | cons p ps ih =>
    obtain ⟨u, hp⟩ | ⟨r, hp⟩ := applyPatch_cases p.1 p.2 s
    · rw [applyPatches_cons_of_next hp] at h
      exact (applyPatches_cons_of_next hp _).trans (ih h)
    · rw [applyPatches_cons_of_refused hp] at h
      cases h

theorem applyPatches_append_of_refused {ps : List (Nat × Nat)} {s : State} {r : Refusal}
    (h : applyPatches ps s = .refused r) (qs : List (Nat × Nat)) : applyPatches (ps ++ qs) s = .refused r := by
  induction ps generalizing s with
  | nil => cases h
  | cons p ps ih =>
    obtain ⟨u, hp⟩ | ⟨q, hp⟩ := applyPatch_cases p.1 p.2 s
    · rw [applyPatches_cons_of_next hp] at h
      exact (applyPatches_cons_of_next hp _).trans (ih h)
    · rw [applyPatches_cons_of_refused hp] at h
      exact (applyPatches_cons_of_refused hp _).trans h

/-- A patch of a memory cell is a store (R57). -/
theorem applyPatch_memory {a v : Nat} (ha : a < 32768) (hv : v < 65536) (s : State) :
    applyPatch a v s = .next (s.memWrite (BitVec.ofNat 15 a) (BitVec.ofNat 16 v)) := by
  rw [applyPatch, if_pos ha, if_pos hv]

/-- A patch of a register is a register write (R57). -/
theorem applyPatch_register (i : Fin 8) (v : Nat) (s : State) :
    applyPatch (32768 + i.val) v s = .next (s.writeReg i v) := by
  have hi : (⟨(32768 + i.val) % 8, Nat.mod_lt _ (by decide)⟩ : Fin 8) = i := Fin.ext (by simp only; omega)
  rw [applyPatch, if_neg (by omega), if_pos (by omega), hi]

theorem applyPatch_memory_result (s : State) {a v : Nat} (ha : a < 32768) (hv : v < 65536) :
    ∃ t, applyPatch a v s = .next t ∧ t = { s with mem := t.mem } ∧
      (t.memRead (BitVec.ofNat 15 a)).toNat = v ∧ ∀ b : Word, b.toNat ≠ a → t.memRead b = s.memRead b := by
  refine ⟨_, applyPatch_memory ha hv s, rfl, ?_, fun b hb => ?_⟩
  · rw [State.memRead_memWrite_self, BitVec.toNat_ofNat, Nat.mod_eq_of_lt hv]
  · refine State.memRead_memWrite_of_ne s (fun hc => hb ?_) _
    rw [hc, address_toNat ha]

/-- Settles O52: a list with more patches at its end, and one patch for each kind of address and value. -/
theorem patchesApplyInOrder : Obligations.PatchesApplyInOrder := by
  refine ⟨fun _ => rfl, fun ps a v s t h => ?_, fun ps qs s r h => applyPatches_append_of_refused h qs,
    fun a v s ha hv => applyPatch_memory_result s ha hv, fun i v s => ?_, fun a v s ha => ?_, fun a v s ha hv => ?_⟩
  · rw [applyPatches_append_of_next h, applyPatches_singleton]
  · have hmod : BitVec.ofNat 15 (v % 32768) = BitVec.ofNat 15 v := BitVec.eq_of_toNat_eq (by simp)
    rw [applyPatch_register, State.writeReg, hmod]
  · rw [applyPatch, if_neg (by omega), if_neg (by omega)]
  · rw [applyPatch, if_pos ha, if_neg (by omega)]

end Sys2Proof.Machine
end

section
/-! PROOFS. Decoding and encoding (30_encoding.md R60 to R69): the class of an operand word, that decoding and encoding
undo each other, the arity as the length of an instruction, and the cells a fetch has read. -/

namespace Sys2Proof

/-! ### The class of an operand word -/

theorem operandOf_of_lt {o : Cell} (h : o.toNat < 32768) : operandOf o = .lit (o.setWidth 15) := if_pos h

theorem operandOf_of_register {o : Cell} {i : Fin 8} (h : o.toNat = 32768 + i.val) : operandOf o = .reg i := by
  have ho : o = (Operand.reg i).raw := BitVec.eq_of_toNat_eq (by simp [Operand.raw]; omega)
  rw [ho, operandOf_raw rfl]

theorem operandOf_of_ge {o : Cell} (h : 32776 ≤ o.toNat) : operandOf o = .invalid o := by
  rw [operandOf, if_neg (by omega), if_neg (by omega)]

/-- An operand word is a literal, a register reference or invalid, by its range (R67). -/
theorem operandWord_cases (o : Cell) :
    o.toNat < 32768 ∨ (∃ i : Fin 8, o.toNat = 32768 + i.val) ∨ 32776 ≤ o.toNat := by
  obtain h | h := Nat.lt_or_ge o.toNat 32768
  · exact .inl h
  · obtain h' | h' := Nat.lt_or_ge o.toNat 32776
    · exact .inr (.inl ⟨⟨o.toNat - 32768, by omega⟩, by simp only; omega⟩)
    · exact .inr (.inr h')

/-- Decoding makes well-formed operands only (R67). -/
theorem operandOf_wf (o : Cell) : (operandOf o).wf = true := by
  obtain h | ⟨i, h⟩ | h := operandWord_cases o
  · rw [operandOf_of_lt h]; rfl
  · rw [operandOf_of_register h]; rfl
  · rw [operandOf_of_ge h]; exact decide_eq_true h

/-- Bit 15 of a cell is set from 32768 on. -/
theorem getLsbD_15_eq (o : Cell) : o.getLsbD 15 = decide (32768 ≤ o.toNat) :=
  BitVec.msb_eq_decide o

theorem extractLsb'_3_12_toNat (o : Cell) : (o.extractLsb' 3 12).toNat = o.toNat / 8 % 4096 := by
  simp [BitVec.extractLsb'_toNat, Nat.shiftRight_eq_div_pow]

/-- Settles O2: bit 15 and bits 14..3 tell the three ranges of an operand word apart. -/
theorem operandClassByBits : Obligations.OperandClassByBits := by
  intro o
  have ho := o.isLt
  have hmid : o.extractLsb' 3 12 = 0 ↔ o.toNat / 8 % 4096 = 0 := by
    rw [← extractLsb'_3_12_toNat]
    exact BitVec.toNat_inj.symm
  have hlow : (o.extractLsb' 0 3).toNat = o.toNat % 8 := by simp [BitVec.extractLsb'_toNat]
  simp only [getLsbD_15_eq, hmid, decide_eq_true_eq, decide_eq_false_iff_not, ne_eq]
  refine ⟨fun h15 => ?_, fun h15 h3 => ?_, fun h15 h3 => ?_⟩
  · rw [operandOf_of_lt (by omega)]
    exact congrArg Operand.lit (BitVec.eq_of_toNat_eq (by simp [BitVec.extractLsb'_toNat]))
  · exact ⟨⟨o.toNat % 8, by omega⟩, operandOf_of_register (by simp only; omega), hlow.symm⟩
  · exact operandOf_of_ge (by omega)

/-! ### Decode and encode -/

/-- Settles O4. -/
theorem decodeOfEncode : Obligations.DecodeOfEncode := fun _ rest h => decode_encode_append h rest

@[simp] theorem opcode_word_toNat (i : Instr) : (BitVec.ofNat 16 i.opcode).toNat = i.opcode := by
  cases i <;> rfl

/-- The operands of a decoded instruction are the classes of the words after its opcode word. -/
theorem exists_operands_of_decode {cells rest : List Cell} {i : Instr} (h : decode cells = .ok (i, rest)) :
    ∃ words : List Cell, i.operands = words.map operandOf := by
  obtain rfl := eq_encode_append_of_decode h
  obtain ⟨j, hj, -, hops⟩ := decode_decodesTo (cells := i.operands.map Operand.raw ++ rest)
    (arity_of_opcode (opcode_word_toNat i)) (by simp)
  obtain ⟨rfl, -⟩ := Prod.mk.inj (Except.ok.inj (h.symm.trans hj))
  exact ⟨_, hops⟩

/-- What decodes is well formed (R67). -/
theorem wf_of_decode {cells rest : List Cell} {i : Instr} (h : decode cells = .ok (i, rest)) : i.wf = true := by
  obtain ⟨words, hops⟩ := exists_operands_of_decode h
  simp [Instr.wf, hops, operandOf_wf]

/-- Settles O5: the cells are the encoding of the answer, and its operands are classes of words. -/
theorem encodeOfDecode : Obligations.EncodeOfDecode := fun _ _ _ h =>
  ⟨wf_of_decode h, (eq_encode_append_of_decode h).symm⟩

/-! ### The arity is the length -/

section
variable {op : Cell} {cells : List Cell} {e : DecodeError}

theorem decodeF1_error {f : Operand → Instr} (h : decodeF1 op f cells = .error e) : e = .operandMissing op := by
  unfold decodeF1 at h
  split at h
  · cases h
  · exact (Except.error.inj h).symm

theorem decodeF2_error {f : Operand → Operand → Instr} (h : decodeF2 op f cells = .error e) :
    e = .operandMissing op := by
  unfold decodeF2 at h
  split at h
  · cases h
  · exact (Except.error.inj h).symm

theorem decodeF3_error {f : Operand → Operand → Operand → Instr} (h : decodeF3 op f cells = .error e) :
    e = .operandMissing op := by
  unfold decodeF3 at h
  split at h
  · cases h
  · exact (Except.error.inj h).symm

/-- Why cells with an opcode word do not decode: the word is no opcode, or operand words are missing (R75, R209). -/
theorem decode_error (h : decode (op :: cells) = .error e) :
    21 < op.toNat ∧ e = .unknownOpcode op ∨ op.toNat ≤ 21 ∧ e = .operandMissing op := by
  dsimp only [decode] at h
  split at h
  case h_23 =>
    simp only [imp_false] at *
    exact .inl ⟨by omega, (Except.error.inj h).symm⟩
  all_goals refine .inr ⟨by omega, ?_⟩
  case h_1 | h_19 | h_22 => cases h
  case h_3 | h_4 | h_7 | h_18 | h_20 | h_21 => exact decodeF1_error h
  case h_2 | h_8 | h_9 | h_15 | h_16 | h_17 => exact decodeF2_error h
  case h_5 | h_6 | h_10 | h_11 | h_12 | h_13 | h_14 => exact decodeF3_error h

/-- A decoded instruction has a known opcode word, and its operand words are all there (R63). -/
theorem arity_of_decode {i : Instr} {rest : List Cell} (h : decode (op :: cells) = .ok (i, rest)) :
    ∃ n, arity op = some n ∧ n ≤ cells.length := by
  obtain ⟨hop, hcells⟩ := List.cons.inj (eq_encode_append_of_decode h)
  exact ⟨i.operands.length, arity_of_opcode (hop ▸ opcode_word_toNat i), by simp [hcells]⟩

theorem decode_of_unknown (h : 21 < op.toNat) : decode (op :: cells) = .error (.unknownOpcode op) := by
  cases hd : decode (op :: cells) with
  | ok p =>
    obtain ⟨n, ha, -⟩ := arity_of_decode hd
    simp [Machine.arity_eq_none.2 h] at ha
  | error e =>
    obtain ⟨-, rfl⟩ | ⟨hle, -⟩ := decode_error hd
    · rfl
    · omega

theorem decode_of_operands_missing {n : Nat} (ha : arity op = some n) (hn : cells.length < n) :
    decode (op :: cells) = .error (.operandMissing op) := by
  cases hd : decode (op :: cells) with
  | ok p =>
    obtain ⟨m, hm, hle⟩ := arity_of_decode hd
    obtain rfl := Option.some.inj (ha.symm.trans hm)
    omega
  | error e =>
    obtain ⟨hop, -⟩ | ⟨-, rfl⟩ := decode_error hd
    · simp [Machine.arity_eq_none.2 hop] at ha
    · rfl

end

/-- Settles O6: the table written out in the statement is the model's, so its entries are arities. -/
theorem arityTableFixesLength : Obligations.ArityTableFixesLength := fun _ _ =>
  ⟨decode_of_unknown, fun _ ha => ⟨decode_of_operands_missing ha, decode_decodesTo ha⟩⟩

/-- Settles O1: each clause is the decoder run on its cells. -/
theorem sampleWordsDecode : Obligations.SampleWordsDecode :=
  ⟨rfl, rfl, rfl, rfl, rfl, rfl, rfl, rfl, rfl, rfl, rfl, rfl, rfl, rfl⟩

end Sys2Proof

namespace Sys2Proof.Machine

/-- Settles O3: the word is of one of the three classes, and each class resolves in its own way. -/
theorem resolutionOfRawOperands : Obligations.ResolutionOfRawOperands := by
  refine fun s o => ⟨fun h => ?_, fun i h => ?_, fun h => ?_⟩
  · rw [operandOf_of_lt (by omega), BitVec.ofNat_toNat]
    exact ⟨rfl, rfl⟩
  · rw [operandOf_of_register h]
    exact ⟨rfl, rfl⟩
  · rw [operandOf_of_ge h]
    exact ⟨rfl, rfl⟩

/-- A fetched instruction was decoded from the cells at `pc` (R65). -/
theorem decode_of_fetch {s : State} {i : Instr} (h : fetch s = .ok i) :
    ∃ n rest, decode (Memory.cellsFrom s.mem s.pc.toNat n) = .ok (i, rest) := by
  unfold fetch at h
  split at h
  · cases h
  · split at h
    · cases h
    · split at h
      · cases h
      · split at h
        · obtain rfl := Except.ok.inj h
          exact ⟨_, _, ‹_›⟩
        · cases h

/-- Settles O7: the cells read are the encoding of the instruction, then cells left over. -/
theorem fetchedInstructionStandsAtPc : Obligations.FetchedInstructionStandsAtPc := by
  intro s i h
  obtain ⟨n, rest, hd⟩ := decode_of_fetch h
  have hcells := eq_encode_append_of_decode hd
  refine ⟨wf_of_decode hd, fetch_ok_inside h, fun k hk => ?_⟩
  have hk' : k < (Memory.cellsFrom s.mem s.pc.toNat n).length := by
    rw [hcells, List.length_append]
    omega
  calc s.memRead (BitVec.ofNat 15 (s.pc.toNat + k))
      = (Memory.cellsFrom s.mem s.pc.toNat n)[k] := (Memory.getElem_cellsFrom _ _ _ _ hk').symm
    _ = (encode i ++ rest)[k]'(hcells ▸ hk') := by simp only [hcells]
    _ = (encode i)[k] := List.getElem_append_left hk

end Sys2Proof.Machine
end

section
/-! PROOFS. The assembly text (30_encoding.md R78 to R82): decimal numbers read back, the pieces of spaced words, and
the words an instruction's text assembles to. -/

namespace Sys2Proof.Assembly

/-! ### Decimal numbers -/

theorem digitValue_digitChar {d : Nat} (h : d < 10) : digitValue (digitChar d) = some d := by
  revert d
  decide

theorem digitChar_ne {d : Nat} (h : d < 10) : digitChar d ≠ ' ' ∧ digitChar d ≠ 'r' := by
  revert d
  decide

theorem readDigits_digitChar {acc d : Nat} (h : d < 10) (cs : List Char) :
    readDigits acc (digitChar d :: cs) = readDigits (10 * acc + d) cs := by
  rw [readDigits, digitValue_digitChar h]

/-- Digits written last are read last: the row before them is their accumulated value. -/
theorem readDigits_append {acc v : Nat} {cs : List Char} (h : readDigits acc cs = some v) (ds : List Char) :
    readDigits acc (cs ++ ds) = readDigits v ds := by
  induction cs generalizing acc with
  | nil => rw [List.nil_append, Option.some.inj h]
  | cons c cs ih =>
    simp only [List.cons_append, readDigits] at h ⊢
    split at h
    · exact ih h
    · cases h

theorem readDigits_decimalDigits {fuel n : Nat} (h : n < 10 ^ (fuel + 1)) :
    readDigits 0 (decimalDigits fuel n) = some n := by
  induction fuel generalizing n with
  | zero =>
    rw [decimalDigits, readDigits_digitChar (by omega), readDigits]
    congr 1
    omega
  | succ fuel ih =>
    unfold decimalDigits
    split
    · rw [readDigits_digitChar ‹_›, readDigits]
      congr 1
      omega
    · rw [readDigits_append (ih (by omega)), readDigits_digitChar (by omega), readDigits]
      congr 1
      omega

theorem exists_digit_of_mem_decimalDigits {fuel n : Nat} {c : Char} (h : c ∈ decimalDigits fuel n) :
    ∃ d < 10, c = digitChar d := by
  induction fuel generalizing n with
  | zero => exact ⟨n % 10, by omega, List.mem_singleton.1 h⟩
  | succ fuel ih =>
    unfold decimalDigits at h
    split at h
    · exact ⟨n, ‹_›, List.mem_singleton.1 h⟩
    · obtain h | h := List.mem_append.1 h
      · exact ih h
      · exact ⟨n % 10, by omega, List.mem_singleton.1 h⟩

theorem space_notMem_decimal (n : Nat) : ' ' ∉ decimal n := fun h => by
  obtain ⟨d, hd, hc⟩ := exists_digit_of_mem_decimalDigits h
  exact (digitChar_ne hd).1 hc.symm

theorem r_notMem_decimal (n : Nat) : 'r' ∉ decimal n := fun h => by
  obtain ⟨d, hd, hc⟩ := exists_digit_of_mem_decimalDigits h
  exact (digitChar_ne hd).2 hc.symm

theorem decimal_ne_nil (n : Nat) : decimal n ≠ [] := by
  unfold decimal decimalDigits
  split <;> simp

/-- A number written in decimal reads back. -/
theorem readDecimal_decimal {n : Nat} (h : n < 100000) : readDecimal (decimal n) = some n := by
  have hread : readDigits 0 (decimal n) = some n := readDigits_decimalDigits (by omega)
  unfold readDecimal
  split
  · exact absurd ‹_› (decimal_ne_nil n)
  · exact hread

/-! ### Operand texts -/

theorem operandWord_decimal {n : Nat} (h : n < 32768) : operandWord (decimal n) = some (BitVec.ofNat 16 n) := by
  unfold operandWord
  split
  · rename_i cs hr
    exact absurd (hr ▸ List.mem_cons_self) (r_notMem_decimal n)
  · rw [readDecimal_decimal (by omega)]
    exact if_pos h

theorem operandWord_register (i : Fin 8) :
    operandWord ('r' :: decimal i.val) = some (BitVec.ofNat 16 (32768 + i.val)) := by
  rw [operandWord, readDecimal_decimal (by omega)]
  exact if_pos i.isLt

/-- An operand that is not invalid has a text with no space in it, which names its word (R79, R82). -/
theorem exists_operandText {o : Operand} (h : ∀ c, o ≠ .invalid c) :
    ∃ t, operandText o = some t ∧ ' ' ∉ t ∧ operandWord t = some o.raw := by
  cases o with
  | lit v =>
    refine ⟨_, rfl, space_notMem_decimal _, ?_⟩
    rw [operandWord_decimal v.isLt, BitVec.ofNat_toNat, Operand.raw]
  | reg i => exact ⟨_, rfl, by simp [space_notMem_decimal], operandWord_register i⟩
  | invalid c => exact absurd rfl (h c)

/-- Operands of which none is invalid have texts that name their words, one each (R79, R82). -/
theorem exists_operandTexts {ops : List Operand} (h : ∀ c, Operand.invalid c ∉ ops) :
    ∃ ts, allSome (ops.map operandText) = some ts ∧ ts.length = ops.length ∧ (∀ t ∈ ts, ' ' ∉ t) ∧
      allSome (ts.map operandWord) = some (ops.map Operand.raw) := by
  induction ops with
  | nil => exact ⟨[], rfl, rfl, by simp, rfl⟩
  | cons o ops ih =>
    simp only [List.mem_cons, not_or] at h
    obtain ⟨t, ht, hspace, hword⟩ := exists_operandText fun c hc => (h c).1 hc.symm
    obtain ⟨ts, hts, hlen, hspaces, hwords⟩ := ih fun c => (h c).2
    refine ⟨t :: ts, by simp [allSome, ht, hts], by simp [hlen], ?_, by simp [allSome, hword, hwords]⟩
    exact List.forall_mem_cons.2 ⟨hspace, hspaces⟩

/-! ### Mnemonics and pieces -/

theorem opcode_lt (i : Instr) : i.opcode < 22 := by
  cases i <;> simp [Instr.opcode]

theorem space_notMem_mnemonic (i : Instr) : ' ' ∉ mnemonic i := by
  have hall : ∀ k < 22, ' ' ∉ mnemonics.getD k [] := by decide
  exact hall _ (opcode_lt i)

/-- The mnemonics are distinct, so each gives its opcode back (R78). -/
theorem findIdx?_mnemonic (i : Instr) : mnemonics.findIdx? (· == mnemonic i) = some i.opcode := by
  have hall : ∀ k < 22, mnemonics.findIdx? (· == mnemonics.getD k []) = some k := by decide
  exact hall _ (opcode_lt i)

theorem pieces_of_space_notMem {w : List Char} (h : ' ' ∉ w) : pieces w = [w] := by
  induction w with
  | nil => rfl
  | cons c w ih =>
    obtain ⟨hc, hw⟩ := not_or.1 (List.mem_cons.not.1 h)
    rw [pieces, if_neg (Ne.symm hc), ih hw]

theorem pieces_append_space {w : List Char} (h : ' ' ∉ w) (cs : List Char) :
    pieces (w ++ ' ' :: cs) = w :: pieces cs := by
  induction w with
  | nil => rfl
  | cons c w ih =>
    obtain ⟨hc, hw⟩ := not_or.1 (List.mem_cons.not.1 h)
    rw [List.cons_append, pieces, if_neg (Ne.symm hc), ih hw]

/-- Words without spaces, separated by single spaces, are the pieces again (R78, R82). -/
theorem pieces_spaced {w : List Char} {ws : List (List Char)} (h : ∀ t ∈ w :: ws, ' ' ∉ t) :
    pieces (spaced (w :: ws)) = w :: ws := by
  induction ws generalizing w with
  | nil => exact pieces_of_space_notMem (h w List.mem_cons_self)
  | cons v ws ih =>
    obtain ⟨hw, hws⟩ := List.forall_mem_cons.1 h
    rw [spaced, pieces_append_space hw, ih hws]
    simp

/-! ### Instructions -/

/-- The mnemonic of an instruction and as many operand texts as it has operands assemble to its opcode word and the
words they name (R82). -/
theorem assemble_spaced {i : Instr} {ts : List (List Char)} {ws : List Cell} (hlen : ts.length = i.operands.length)
    (hspaces : ∀ t ∈ ts, ' ' ∉ t) (hwords : allSome (ts.map operandWord) = some ws) :
    assemble (spaced (mnemonic i :: ts)) = some (BitVec.ofNat 16 i.opcode :: ws) := by
  have hpieces := pieces_spaced (List.forall_mem_cons.2 ⟨space_notMem_mnemonic i, hspaces⟩)
  have harity : arityTable[i.opcode]? = some ts.length := by
    rw [hlen, ← arity_of_opcode (opcode_word_toNat i), arity, opcode_word_toNat]
  simp [assemble, hpieces, findIdx?_mnemonic, harity, hwords]

/-- Settles O9: the operand texts name the operand words, and the mnemonic gives the opcode word. -/
theorem assemblyTextGivesWordsBack : Obligations.AssemblyTextGivesWordsBack := by
  intro i h
  obtain ⟨ts, hts, hlen, hspaces, hwords⟩ := exists_operandTexts h
  exact ⟨spaced (mnemonic i :: ts), by rw [instrText, hts]; rfl, assemble_spaced hlen hspaces hwords⟩

end Sys2Proof.Assembly
end

section
/-! PROOFS. `set`, `push`, `pop` (40_move_stack.md R101 to R103): their next state in every form; and what the
instructions that write one register, and those that move the stack, leave unchanged. -/

namespace Sys2Proof.Machine

open Sys2Proof.Claims

/-! ### The rules -/

/-- A register write keeps its value modulo 32768 (R14). -/
theorem ofNat_mod_32768 (n : Nat) : BitVec.ofNat 15 (n % 32768) = BitVec.ofNat 15 n := by
  apply BitVec.eq_of_toNat_eq
  simp

/-- An instruction that resolves a destination, then a source, and writes a register follows the rule of the shape
`dest a` (R71). -/
theorem twoOperandRule {mk : Operand → Operand → Instr} {f : State → Word → Word} {g : State → Word → Nat}
    (hexec : ∀ d a s, exec (mk d a) s =
      withDest s d fun i => withSource s a fun x => .next ((s.writeReg i (g s x)).advance 3))
    (hvalue : ∀ s x, BitVec.ofNat 15 (g s x) = f s x) : TwoOperandRule mk f := by
  refine ⟨fun s i a x hx => ?_, fun s v a => hexec _ _ _, fun s c a => hexec _ _ _, fun s i c => hexec _ _ _⟩
  calc exec (mk (.reg i) a) s
      _ = withSource s a fun x => .next ((s.writeReg i (g s x)).advance 3) := hexec _ _ _
      _ = .next ((s.writeReg i (g s x)).advance 3) := withSource_ok hx _
      _ = .next { s with regs := s.regs.set i (f s x), pc := s.pc + 3 } := by rw [← hvalue]; rfl

/-- Settles O18: a Word is its own number modulo 32768. -/
theorem setCopiesItsSource : Obligations.SetCopiesItsSource :=
  twoOperandRule (g := fun _ v => v.toNat) (fun _ _ _ => rfl) fun _ v => by simp

/-- Settles O19. -/
theorem pushAppendsTheWord : Obligations.PushAppendsTheWord :=
  ⟨fun _ _ _ hv => withSource_ok hv _, fun _ _ => rfl⟩

theorem State.pop_of_stack {s : State} {below : List Cell} {top : Cell} (h : s.stack = below ++ [top]) :
    s.pop = some (top, { s with stack := below }) := by
  simp [State.pop, h]

/-- `pop` on a stack that is not empty (R103). -/
theorem exec_pop_of_some {s s' : State} {v : Cell} (h : s.pop = some (v, s')) (r : Fin 8) :
    exec (.pop (.reg r)) s = .next ((s'.writeReg r v.toNat).advance 2) := by
  show execPop (.reg r) s = _
  simp [execPop, withDest, h]

/-- `pop` on an empty stack (R103). -/
theorem exec_pop_of_none {s : State} (h : s.pop = none) (r : Fin 8) :
    exec (.pop (.reg r)) s = raise .stackUnderflow s := by
  show execPop (.reg r) s = _
  simp [execPop, withDest, h]

/-- Settles O20: the stack is examined once the destination names a register. -/
theorem popTakesTheTop : Obligations.PopTakesTheTop := by
  refine ⟨fun s r below top h => ?_, fun s r h => exec_pop_of_none (State.pop_none.2 h) r, fun _ _ => rfl,
    fun _ _ => rfl⟩
  rw [exec_pop_of_some (State.pop_of_stack h), ofNat_mod_32768]
  rfl

/-! ### The frames -/

/-- Memory, the channels and the parameters are as before, and the status but for a fault entry. -/
def KeepsAllButRegsAndStack (s t : State) : Prop :=
  SameMemory s t ∧ t.outTrace = s.outTrace ∧ SameInput s t ∧ t.params = s.params ∧ SameStatusOrFaulted s t

section
variable {s t : State} {d a b : Operand}

theorem keepsAllButRegsAndStack_faultEntry (f : FaultCause) : KeepsAllButRegsAndStack s (s.faultEntry f) :=
  ⟨fun _ => rfl, rfl, ⟨rfl, rfl, rfl⟩, rfl, .inr ⟨rfl, Option.some_ne_none f⟩⟩

theorem keepsAllButRegsAndStack_update (regs : Vector Word 8) (stack : List Cell) (pc : BitVec 16) :
    KeepsAllButRegsAndStack s { s with regs, stack, pc } :=
  ⟨fun _ => rfl, rfl, ⟨rfl, rfl, rfl⟩, rfl, .inl ⟨rfl, rfl⟩⟩

/-- What a register instruction with destination `d` does: a fault entry, or a write to the register `d` names and
the advance. -/
def RegisterEffect (d : Operand) (s t : State) : Prop :=
  (∃ c, t = s.faultEntry c) ∨ ∃ j v n, d = .reg j ∧ t = (s.writeReg j v).advance n

theorem RegisterEffect.frame (h : RegisterEffect d s t) :
    (∀ r, d ≠ .reg r → t.reg r = s.reg r) ∧ t.stack = s.stack ∧ KeepsAllButRegsAndStack s t := by
  obtain ⟨c, rfl⟩ | ⟨j, v, n, rfl, rfl⟩ := h
  · exact ⟨fun _ _ => rfl, rfl, keepsAllButRegsAndStack_faultEntry c⟩
  · exact ⟨fun r hr => State.reg_writeReg_of_ne s (fun hj => hr (congrArg _ hj)) v, rfl,
      keepsAllButRegsAndStack_update _ _ _⟩

theorem threeOperand_registerEffect {f : Word → Word → Nat} (h : threeOperand f d a b s = .next t) :
    RegisterEffect d s t :=
  (threeOperand_next h).imp_right fun ⟨j, _, _, hd, _, _, ht⟩ => ⟨j, _, _, hd, ht⟩

/-- What a stack instruction does but for the halt of `ret`: a fault entry, or one entry pushed or popped with no more
than registers and `pc` changed beside it. -/
def StackEffect (s t : State) : Prop :=
  (∃ c, t = s.faultEntry c) ∨ ∃ regs stack pc, t = { s with regs, stack, pc } ∧
    ((∃ v, stack = s.stack ++ [v]) ∨ ∃ v, s.stack = stack ++ [v])

theorem StackEffect.frame (h : StackEffect s t) :
    (t.stack = s.stack ∨ (∃ v, t.stack = s.stack ++ [v]) ∨ ∃ v, s.stack = t.stack ++ [v]) ∧
      KeepsAllButRegsAndStack s t := by
  obtain ⟨c, rfl⟩ | ⟨regs, stack, pc, rfl, hstack⟩ := h
  · exact ⟨.inl rfl, keepsAllButRegsAndStack_faultEntry c⟩
  · exact ⟨.inr hstack, keepsAllButRegsAndStack_update _ _ _⟩

theorem execPush_stackEffect (h : execPush a s = .next t) : StackEffect s t :=
  (execPush_next h).imp_right fun ⟨_, _, ht⟩ => ⟨_, _, _, ht, .inl ⟨_, rfl⟩⟩

theorem execPop_stackEffect (h : execPop d s = .next t) : StackEffect s t := by
  obtain hfault | ⟨j, v, s', -, hp, rfl⟩ := execPop_next h
  · exact .inl hfault
  · obtain ⟨hstack, rfl⟩ := State.pop_some hp
    exact .inr ⟨_, _, _, rfl, .inr ⟨v, hstack⟩⟩

theorem execCall_stackEffect (h : execCall a s = .next t) : StackEffect s t :=
  (execCall_next h).imp_right fun ⟨_, _, ht⟩ => ⟨_, _, _, ht, .inl ⟨_, rfl⟩⟩

theorem execRet_stackEffect (h : execRet s = .next t) : StackEffect s t ∨ s.stack = [] ∧ t = s.halt := by
  obtain ⟨v, s', hp, rfl⟩ | ⟨hempty, ⟨-, hfault⟩ | ⟨-, hhalt⟩⟩ := execRet_next h
  · obtain ⟨hstack, rfl⟩ := State.pop_some hp
    exact .inl (.inr ⟨_, _, _, rfl, .inr ⟨v, hstack⟩⟩)
  · exact .inl (.inl ⟨_, hfault⟩)
  · exact .inr ⟨hempty, hhalt⟩

/-- A register that is not the destination is as before (R15). -/
theorem WritesAtMost.reg_eq {o : Option Operand} (hw : WritesAtMost o s t) {r : Fin 8} (hr : o ≠ some (.reg r)) :
    t.reg r = s.reg r :=
  by_contra fun hne => hr (hw.dest_of_reg_ne hne)

end

/-- Settles O36: each of the ten enters a fault or writes its destination register and advances. -/
theorem registerInstructionFrame : Obligations.RegisterInstructionFrame := by
  intro i d a b s t hi h
  refine RegisterEffect.frame ?_
  simp only [List.mem_cons, List.not_mem_nil, or_false] at hi
  -- In the order of the statement: set; eq, gt, add, mult; mod; and, or; not; rmem.
  obtain rfl | rfl | rfl | rfl | rfl | rfl | rfl | rfl | rfl | rfl := hi
  · exact (execSet_next h).imp_right fun ⟨j, _, hd, _, ht⟩ => ⟨j, _, _, hd, ht⟩
  · exact threeOperand_registerEffect h
  · exact threeOperand_registerEffect h
  · exact threeOperand_registerEffect h
  · exact threeOperand_registerEffect h
  · exact (execMod_next h).imp_right fun ⟨j, _, _, hd, _, _, _, ht⟩ => ⟨j, _, _, hd, ht⟩
  · exact threeOperand_registerEffect h
  · exact threeOperand_registerEffect h
  · exact (execNot_next h).imp_right fun ⟨j, _, hd, _, ht⟩ => ⟨j, _, _, hd, ht⟩
  · exact (execRmem_next h).imp_right fun ⟨j, _, hd, _, ht⟩ => ⟨j, _, _, hd, ht⟩

/-- Settles O38: each of the four has a stack effect, or is `ret` halting on an empty stack. -/
theorem stackInstructionFrame : Obligations.StackInstructionFrame := by
  intro i d a s t hi h
  refine ⟨fun r hr => (exec_writes h).reg_eq hr, ?_⟩
  have heffect : StackEffect s t ∨ i = .ret ∧ s.stack = [] ∧ t = s.halt := by
    simp only [List.mem_cons, List.not_mem_nil, or_false] at hi
    obtain rfl | rfl | rfl | rfl := hi
    · exact .inl (execPush_stackEffect h)
    · exact .inl (execPop_stackEffect h)
    · exact .inl (execCall_stackEffect h)
    · exact (execRet_stackEffect h).imp_right fun hhalt => ⟨rfl, hhalt⟩
  obtain heffect | ⟨hret, hempty, rfl⟩ := heffect
  · obtain ⟨hstack, hmem, hout, hinput, hparams, hstatus⟩ := heffect.frame
    exact ⟨hstack, hmem, hout, hinput, hparams, .inr hstatus⟩
  · exact ⟨.inl rfl, fun _ => rfl, rfl, ⟨rfl, rfl, rfl⟩, rfl, .inl ⟨hret, hempty⟩⟩

end Sys2Proof.Machine
end

section
/-! PROOFS. `eq`, `gt` (41_compare.md R110 to R112): their next state in every form, by the rule of the shape
`dest a b`, which other instructions of that shape share. -/

namespace Sys2Proof.Machine

open Sys2Proof.Claims

/-- An instruction that means `threeOperand` follows the rule of the shape `dest a b` (R71). -/
theorem threeOperandRule {mk : Operand → Operand → Operand → Instr} {f : Word → Word → Word} {g : Word → Word → Nat}
    (hexec : ∀ d a b s, exec (mk d a b) s = threeOperand g d a b s)
    (hvalue : ∀ x y, BitVec.ofNat 15 (g x y) = f x y) : ThreeOperandRule mk f := by
  refine ⟨fun s i a b x y hx hy => ?_, fun s v a b => hexec _ _ _ _, fun s c a b => hexec _ _ _ _,
    fun s i c b => hexec _ _ _ _, fun s i a x c hx => (hexec _ _ _ _).trans (withSource_ok hx _)⟩
  calc exec (mk (.reg i) a b) s
      _ = withSource s a fun x => withSource s b fun y => .next ((s.writeReg i (g x y)).advance 4) := hexec _ _ _ _
      _ = withSource s b fun y => .next ((s.writeReg i (g x y)).advance 4) := withSource_ok hx _
      _ = .next ((s.writeReg i (g x y)).advance 4) := withSource_ok hy _
      _ = .next { s with regs := s.regs.set i (f x y), pc := s.pc + 4 } := by rw [← hvalue]; rfl

/-- The Word a comparison writes is 1 or 0 (R112). -/
theorem ofNat_truthWord (p : Prop) [Decidable p] :
    BitVec.ofNat 15 (truthWord (decide p)) = if p then 1 else 0 := by
  by_cases hp : p <;> simp [truthWord, hp]

/-- `eq` compares the Words as numbers (R110, R112). -/
theorem cmpEq_eq_truthWord (x y : Word) : cmpEq x y = truthWord (decide (x.toNat = y.toNat)) := by
  simp only [cmpEq, BitVec.toNat_inj, beq_eq_decide]

/-- Settles O21: both have the shape `dest a b`, and each comparison answers a truth value. -/
theorem comparesWriteOneOrZero : Obligations.ComparesWriteOneOrZero :=
  ⟨threeOperandRule (g := cmpEq) (fun _ _ _ _ => rfl) fun x y => by rw [cmpEq_eq_truthWord, ofNat_truthWord],
    threeOperandRule (g := cmpGt) (fun _ _ _ _ => rfl) fun _ _ => ofNat_truthWord _⟩

end Sys2Proof.Machine
end

section
/-! PROOFS. `jmp`, `jt`, `jf` (42_jump.md R120 to R122): their next state in every form; and what they, `noop` and
`halt` leave unchanged. -/

namespace Sys2Proof.Machine

open Sys2Proof.Claims

/-! ### The rules -/

/-- A target that resolves goes to `pc`, with no default advance (R18, R123). -/
theorem jumpTo_ok {s : State} {a : Operand} {v : Word} (h : resolveRead s a = .ok v) :
    jumpTo a s = .next { s with pc := v.setWidth 16 } :=
  withSource_ok h _

/-- Settles O22. -/
theorem jmpGoesToItsTarget : Obligations.JmpGoesToItsTarget :=
  ⟨fun _ _ _ => jumpTo_ok, fun _ _ => rfl⟩

/-- An instruction that resolves a condition, then jumps or advances by 3, follows the rule of the conditional jumps:
the target is resolved in the branch that is taken only (R72). -/
theorem conditionalJumpRule {mk : Operand → Operand → Instr} {p : Word → Prop} [DecidablePred p]
    (hexec : ∀ c a s, exec (mk c a) s = withSource s c fun x => if p x then jumpTo a s else .next (s.advance 3)) :
    ConditionalJumpRule mk p := by
  have htaken : ∀ {s c x} a, resolveRead s c = .ok x → p x → exec (mk c a) s = jumpTo a s :=
    fun a hc hp => by rw [hexec, withSource_ok hc, if_pos hp]
  refine ⟨fun s c x a v hc hp ha => (htaken a hc hp).trans (jumpTo_ok ha), fun s c x a hc hp => ?_,
    fun s r a => hexec _ _ _, fun s c x r hc hp => htaken _ hc hp⟩
  rw [hexec, withSource_ok hc, if_neg hp]
  rfl

/-- `jf` jumps where `jt` advances (R122). -/
theorem exec_jf (c a : Operand) (s : State) :
    exec (.jf c a) s = withSource s c fun x => if x = 0 then jumpTo a s else .next (s.advance 3) :=
  congrArg (withSource s c) (funext fun x => ite_not (x = 0) _ _)

/-- Settles O23: `jt` has the shape as it stands, `jf` with its two branches exchanged. -/
theorem conditionalJumps : Obligations.ConditionalJumps :=
  ⟨conditionalJumpRule fun _ _ _ => rfl, conditionalJumpRule exec_jf⟩

/-! ### The frame -/

section
variable {s t : State} {a : Operand}

/-- What a jump or `noop` does: a fault entry, or a change of `pc` alone. -/
def PcEffect (s t : State) : Prop := (∃ f, t = s.faultEntry f) ∨ ∃ pc, t = s.setPc pc

theorem PcEffect.frame (h : PcEffect s t) : t.regs = s.regs ∧ t.stack = s.stack ∧ KeepsAllButRegsAndStack s t := by
  obtain ⟨f, rfl⟩ | ⟨pc, rfl⟩ := h
  · exact ⟨rfl, rfl, keepsAllButRegsAndStack_faultEntry f⟩
  · exact ⟨rfl, rfl, keepsAllButRegsAndStack_update _ _ _⟩

theorem execJmp_pcEffect (h : execJmp a s = .next t) : PcEffect s t :=
  (jumpTo_next h).imp_right fun ⟨_, _, ht⟩ => ⟨_, ht⟩

/-- The two ends of a conditional jump, the default advance and the target, change `pc` alone. -/
theorem PcEffect.of_conditional
    (h : (∃ f, t = s.faultEntry f) ∨ t = s.advance 3 ∨ ∃ v, resolveRead s a = .ok v ∧ t = s.setPc (zext16 v)) :
    PcEffect s t := by
  obtain hfault | hadvance | ⟨v, -, htarget⟩ := h
  · exact .inl hfault
  · exact .inr ⟨_, hadvance⟩
  · exact .inr ⟨_, htarget⟩

theorem execNoop_pcEffect (h : execNoop s = .next t) : PcEffect s t :=
  .inr ⟨_, (Host.Outcome.next.inj h).symm⟩

end

/-- Settles O37: each of the five has an effect on `pc` alone, or is `halt`. -/
theorem controlInstructionFrame : Obligations.ControlInstructionFrame := by
  intro i c a s t hi h
  have heffect : i ≠ .halt ∧ PcEffect s t ∨ i = .halt ∧ t = s.halt.advance 1 := by
    simp only [List.mem_cons, List.not_mem_nil, or_false] at hi
    obtain rfl | rfl | rfl | rfl | rfl := hi
    · exact .inl ⟨nofun, execJmp_pcEffect h⟩
    · exact .inl ⟨nofun, .of_conditional (execJt_next h)⟩
    · exact .inl ⟨nofun, .of_conditional (execJf_next h)⟩
    · exact .inl ⟨nofun, execNoop_pcEffect h⟩
    · exact .inr ⟨rfl, (Host.Outcome.next.inj h).symm⟩
  obtain ⟨hne, heffect⟩ | ⟨hhalt, rfl⟩ := heffect
  · obtain ⟨hregs, hstack, hmem, hout, hinput, hparams, hstatus⟩ := heffect.frame
    exact ⟨hregs, hstack, hmem, hout, hinput, hparams, fun _ => hstatus, fun hhalt => absurd hhalt hne⟩
  · exact ⟨rfl, rfl, fun _ => rfl, rfl, ⟨rfl, rfl, rfl⟩, rfl, fun hne => absurd hhalt hne, fun _ => rfl⟩

end Sys2Proof.Machine
end

section
/-! PROOFS. `add`, `mult`, `mod`, `and`, `or`, `not` (43_alu.md R130 to R137): their next state in every form. All but
`mod` follow the rule of their shape; `mod` examines its divisor once the operands have resolved. -/

namespace Sys2Proof.Machine

open Sys2Proof.Claims

/-! ### `mod` -/

/-- `mod` on operands that resolve, its divisor not examined yet (R133). -/
theorem exec_mod_of_ok {s : State} {a b : Operand} {x y : Word} (ha : resolveRead s a = .ok x)
    (hb : resolveRead s b = .ok y) (i : Fin 8) :
    exec (.mod (.reg i) a b) s =
      if y = 0 then raise .divisionByZeroModulus s else .next ((s.writeReg i (aluMod x y)).advance 4) :=
  (withSource_ok ha _).trans (withSource_ok hb _)

/-- The remainder of two Words is a Word: the register write does not reduce it (R14, R137). -/
theorem ofNat_aluMod_toNat (x y : Word) : (BitVec.ofNat 15 (aluMod x y)).toNat = x.toNat % y.toNat :=
  Nat.mod_eq_of_lt ((Nat.mod_le _ _).trans_lt x.isLt)

/-- Settles O25: the remainder written is that of the quotient `x / y`, and the divisor decides between it and the
fault. -/
theorem modIsTheRemainder : Obligations.ModIsTheRemainder := by
  refine ⟨fun s i a b x y ha hb hy => ?_, fun s i a b x y ha hb hy => ?_, fun _ _ _ _ => rfl, fun _ _ _ _ => rfl,
    fun _ _ _ _ => rfl, fun _ _ _ _ _ ha => withSource_ok ha _⟩
  · refine ⟨BitVec.ofNat 15 (aluMod x y), ⟨x.toNat / y.toNat, ?_⟩, ?_, ?_⟩
    · rw [ofNat_aluMod_toNat, Nat.div_add_mod']
    · rw [ofNat_aluMod_toNat]
      exact Nat.mod_lt _ (Nat.pos_of_ne_zero hy)
    · have hne : y ≠ 0 := fun h => hy (congrArg BitVec.toNat h)
      rw [exec_mod_of_ok ha hb, if_neg hne]
      rfl
  · rw [exec_mod_of_ok ha hb, if_pos (BitVec.eq_of_toNat_eq hy)]
    rfl

/-! ### `add` and `mult` -/

/-- Settles O24: the exact result is reduced by the register write. -/
theorem addAndMultModulo32768 : Obligations.AddAndMultModulo32768 :=
  ⟨threeOperandRule (g := aluAdd) (fun _ _ _ _ => rfl) fun _ _ => (ofNat_mod_32768 _).symm,
    threeOperandRule (g := aluMult) (fun _ _ _ _ => rfl) fun _ _ => (ofNat_mod_32768 _).symm⟩

/-! ### `and`, `or` and `not` -/

/-- A register write keeps the number of a Word (R14). -/
theorem ofNat_toNat_word (x : Word) : BitVec.ofNat 15 x.toNat = x := by
  rw [BitVec.ofNat_toNat, BitVec.setWidth_eq]

/-- Inverting all 15 bits of a Word subtracts it from the largest Word (R136). -/
theorem xor_7FFF_toNat (a : Word) : (a ^^^ 0x7FFF#15).toNat = 32767 - a.toNat := by
  have hones : 0x7FFF#15 = BitVec.allOnes 15 := rfl
  rw [hones, BitVec.xor_allOnes, BitVec.toNat_not]

theorem ofNat_aluNot (a : Word) : BitVec.ofNat 15 (aluNot a) = a ^^^ 0x7FFF#15 := by
  rw [aluNot, ← xor_7FFF_toNat, ofNat_toNat_word]

/-- Settles O26: the bitwise results are Words already, and so is the complement. -/
theorem logicOnFifteenBits : Obligations.LogicOnFifteenBits :=
  ⟨threeOperandRule (g := aluAnd) (fun _ _ _ _ => rfl) fun _ _ => ofNat_toNat_word _,
    threeOperandRule (g := aluOr) (fun _ _ _ _ => rfl) fun _ _ => ofNat_toNat_word _,
    twoOperandRule (g := fun _ => aluNot) (fun _ _ _ => rfl) fun _ => ofNat_aluNot,
    xor_7FFF_toNat⟩

end Sys2Proof.Machine
end

section
/-! PROOFS. `rmem`, `wmem` (44_memory_access.md R150, R151): their next state in every form, and what `wmem` leaves
unchanged. -/

namespace Sys2Proof.Machine

open Sys2Proof.Claims

/-- Settles O27: `rmem` has the shape `dest a`, and the register write drops bit 15 of the cell. -/
theorem rmemLoadsTheCell : Obligations.RmemLoadsTheCell :=
  twoOperandRule (g := fun s addr => (s.memRead addr).toNat) (fun _ _ _ => rfl) fun _ _ => (ofNat_mod_32768 _).symm

/-- Settles O28: the Memory after the store is `writeCell` of the Word, which fixes the cell and keeps the others. -/
theorem wmemStoresTheWord : Obligations.WmemStoresTheWord := by
  refine ⟨fun s d a m v hd ha => ⟨Memory.writeCell s.mem m (zext16 v), exec_wmem hd ha, ?cell, ?others, ?bytes⟩,
    fun _ _ _ => rfl, fun _ _ _ _ hd => withSource_ok hd _⟩
  case cell => exact Memory.readCell_writeCell_self s.mem m _
  case others => exact fun b hb => Memory.readCell_writeCell_of_ne s.mem hb _
  case bytes => exact fun k hk => Memory.readByte_writeCell_of_ne s.mem m _ hk

/-- Settles O39: `wmem` enters a fault, or both operands resolve and one cell is stored. -/
theorem wmemFrame : Obligations.WmemFrame := by
  intro d a s t h
  obtain ⟨c, rfl⟩ | ⟨m, v, hd, ha, rfl⟩ := execWmem_next h
  · obtain ⟨hmem, hout, hinput, hparams, hstatus⟩ := keepsAllButRegsAndStack_faultEntry (s := s) c
    exact ⟨fun _ _ k _ _ => hmem k, fun _ _ => hmem, rfl, rfl, hout, hinput, hparams, hstatus⟩
  · refine ⟨fun m' hd' k hlo hhi => ?_, fun f hf => ?_, rfl, rfl, rfl, ⟨rfl, rfl, rfl⟩, rfl, .inl ⟨rfl, rfl⟩⟩
    · obtain rfl : m = m' := Except.ok.inj (hd.symm.trans hd')
      exact Memory.readByte_writeCell_of_ne s.mem m _ (by omega)
    · -- Both operands resolve, so neither is the fault `f`.
      simp [hd, ha] at hf

end Sys2Proof.Machine
end

section
/-! PROOFS. `call`, `ret` (45_call_ret.md R160, R161): their next state in every form; and that `ret` undoes `call`,
and `pop` undoes `push` (40_move_stack.md R102, R103). -/

namespace Sys2Proof.Machine

open Sys2Proof.Claims

/-! ### The rules -/

/-- Settles O29: the target is resolved before the push. -/
theorem callPushesTheReturnAddress : Obligations.CallPushesTheReturnAddress :=
  ⟨fun _ _ _ ht => withSource_ok ht _, fun _ _ => rfl⟩

/-- `ret` on a stack that is not empty (R161). -/
theorem exec_ret_of_some {s s' : State} {v : Cell} (h : s.pop = some (v, s')) : exec .ret s = .next (s'.setPc v) := by
  show execRet s = _
  simp [execRet, h]

/-- `ret` on an empty stack under the policy `fault` (R161, R163). -/
theorem exec_ret_of_none_fault {s : State} (h : s.pop = none) (hp : s.params.retEmptyPolicy = .fault) :
    exec .ret s = raise .stackUnderflow s := by
  show execRet s = _
  simp [execRet, h, hp]

/-- `ret` on an empty stack under the policy `halt` (R161, R163). -/
theorem exec_ret_of_none_halt {s : State} (h : s.pop = none) (hp : s.params.retEmptyPolicy = .halt) :
    exec .ret s = .next s.halt := by
  show execRet s = _
  simp [execRet, h, hp]

/-- Settles O30: the stack decides between the return and the policy, and the policy between its two ends. -/
theorem retPopsOrFollowsThePolicy : Obligations.RetPopsOrFollowsThePolicy :=
  ⟨fun _ _ _ h => exec_ret_of_some (State.pop_of_stack h),
    fun _ h => exec_ret_of_none_fault (State.pop_none.2 h),
    fun _ h => exec_ret_of_none_halt (State.pop_none.2 h)⟩

/-! ### What was pushed comes back -/

/-- A Word pushed and popped into a register is the same Word: widening it to a stack entry keeps its number, and the
register write does not reduce it (R14, R102, R103). -/
theorem ofNat_setWidth_16_toNat_mod (v : Word) : BitVec.ofNat 15 ((v.setWidth 16).toNat % 32768) = v := by
  have hkeeps : (v.setWidth 16).toNat = v.toNat := BitVec.toNat_setWidth_of_le (by decide)
  rw [hkeeps, ofNat_mod_32768, ofNat_toNat_word]

/-- Settles O35: the state after `call` or `push` has the old stack below the entry that `ret` or `pop` takes. -/
theorem callRetAndPushPopBalance : Obligations.CallRetAndPushPopBalance := by
  obtain ⟨hcall, -⟩ := callPushesTheReturnAddress
  obtain ⟨hret, -⟩ := retPopsOrFollowsThePolicy
  obtain ⟨hpush, -⟩ := pushAppendsTheWord
  obtain ⟨hpop, -⟩ := popTakesTheTop
  refine ⟨fun s a v hv => ⟨_, hcall s a v hv, hret _ s.stack (s.pc + 2) rfl⟩, fun s a v r hv =>
    ⟨_, hpush s a v hv, ?_⟩⟩
  have hpc : s.pc + 2 + 2 = s.pc + 4 := BitVec.add_assoc s.pc 2 2
  rw [hpop _ r s.stack (v.setWidth 16) rfl, ofNat_setWidth_16_toNat_mod, hpc]

end Sys2Proof.Machine
end

section
/-! PROOFS. `out`, `in` (46_io.md R170 to R172): their next state in every form, the end of a wait (60_exceptions.md
R225), and what the two leave unchanged. -/

namespace Sys2Proof.Machine

open Sys2Proof.Claims

/-- Settles O31. -/
theorem outEmitsTheCode : Obligations.OutEmitsTheCode :=
  ⟨fun _ _ _ hc => withSource_ok hc _, fun _ _ => rfl⟩

/-! ### The next code of the channel -/

section
variable {s : State} {c : Nat}

/-- With the cursor at a character, the channel gives it (R220, first case). -/
theorem State.bufferedChar_of_char (h : s.icBuf[s.icCur]? = some c) :
    s.bufferedChar = some (c, { s with icCur := s.icCur + 1 }) := by
  simp [State.bufferedChar, h]

/-- With the cursor just after the last character, the channel gives the terminator (R220, second case). -/
theorem State.bufferedChar_of_end (h : s.icCur = s.icBuf.length) :
    s.bufferedChar = some (s.params.lineTerminatorCode, { s with icCur := s.icCur + 1 }) := by
  simp [State.bufferedChar, h]

/-- The first code of a line just loaded: its first character, or the terminator of an empty line (R222, R223). -/
theorem State.bufferedChar_of_loaded (s : State) (l : List Nat) (rest : List (List Nat)) :
    State.bufferedChar { s with icBuf := l, icCur := 0, lines := rest } =
      some (l.headD s.params.lineTerminatorCode, { s with icBuf := l, icCur := 1, lines := rest }) := by
  cases l with
  | nil => exact State.bufferedChar_of_end rfl
  | cons c cs => exact State.bufferedChar_of_char rfl

theorem State.nextChar_of_buffered {r : Nat × State} (h : s.bufferedChar = some r) : s.nextChar = some r := by
  simp [State.nextChar, h]

/-- On an exhausted channel the first queued line is loaded and gives its first code (R220, third case). -/
theorem State.nextChar_of_line {l : List Nat} {rest : List (List Nat)} (hx : s.exhausted) (hl : s.lines = l :: rest) :
    s.nextChar =
      some (l.headD s.params.lineTerminatorCode, { s with icBuf := l, icCur := 1, lines := rest }) := by
  simp [State.nextChar, State.bufferedChar_none.2 hx, hl, State.bufferedChar_of_loaded]

/-! ### The rule of `in` -/

/-- `in` when the channel has a code: the register keeps it modulo 32768 (R14, R171). -/
theorem exec_in_of_some {s' : State} (h : s.nextChar = some (c, s')) (r : Fin 8) :
    exec (.inp (.reg r)) s =
      .next { s' with regs := s'.regs.set r (BitVec.ofNat 15 (c % 32768)), pc := s'.pc + 2 } := by
  show execIn (.reg r) s = _
  simp only [execIn, withDest, resolveWrite, h, ofNat_mod_32768]
  rfl

/-- `in` when the channel has no code: the core begins to wait (R172). -/
theorem exec_in_of_none (h : s.nextChar = none) (r : Fin 8) :
    exec (.inp (.reg r)) s = .next { s with runState := .waitingInput } := by
  show execIn (.reg r) s = _
  simp [execIn, withDest, resolveWrite, h]

end

/-- Settles O32: the cursor and the queue decide what `NextChar` answers, and `in` follows it. -/
theorem inTakesOneCode : Obligations.InTakesOneCode := by
  refine ⟨fun s r c hc => ?char, fun s r hend => ?terminator, fun s r c cs rest hx hl => ?line,
    fun s r rest hx hl => ?emptyLine, fun s r hx hl => ?wait, fun _ _ => rfl, fun _ _ => rfl⟩
  case char => exact exec_in_of_some (State.nextChar_of_buffered (State.bufferedChar_of_char hc)) r
  case terminator => exact exec_in_of_some (State.nextChar_of_buffered (State.bufferedChar_of_end hend)) r
  case line => exact exec_in_of_some (State.nextChar_of_line hx hl) r
  case emptyLine => exact exec_in_of_some (State.nextChar_of_line hx hl) r
  case wait => exact exec_in_of_none (State.nextChar_none.2 ⟨hx, hl⟩) r

/-! ### The end of a wait -/

/-- A `Running` core executes the instruction at `pc` (R200). -/
theorem step_of_fetch {s : State} {i : Instr} (hr : s.runState = .running) (hf : fetch s = .ok i) :
    step s = exec i s := by
  simp [step, hr, hf]

/-- A waiting `in` with a code to take is executed with the core `Running` again (R225). -/
theorem resumeIn_of_fetch {s : State} {r : Fin 8} (hc : s.nextChar ≠ none) (hf : fetch s = .ok (.inp (.reg r))) :
    resumeIn s = exec (.inp (.reg r)) { s with runState := .running } := by
  obtain ⟨p, hp⟩ := Option.ne_none_iff_exists'.1 hc
  simp only [resumeIn, hp, hf]
  rfl

/-- The line delivered to a waiting core gives its `in` a code to take (R221, R225). -/
theorem deliverLine_of_waiting {s : State} {r : Fin 8} (hw : s.runState = .waitingInput)
    (hf : fetch s = .ok (.inp (.reg r))) (line : List Nat) :
    deliverLine line s = exec (.inp (.reg r)) { s with runState := .running, lines := s.lines ++ [line] } := by
  have hcode : State.nextChar { s with lines := s.lines ++ [line] } ≠ none := fun hnone =>
    List.concat_ne_nil line s.lines (State.nextChar_none.1 hnone).2
  calc deliverLine line s
      _ = resumeIn { s with lines := s.lines ++ [line] } := by simp [deliverLine, hw]
      _ = _ := resumeIn_of_fetch hcode ((fetch_with_lines s _).trans hf)

/-- Settles O49: `NextChar` has no code before the delivery, and the first code of the line after it. -/
theorem deliveryCompletesAWaitingIn : Obligations.DeliveryCompletesAWaitingIn := by
  intro s r line hr hf hx hl
  constructor
  · rw [step_of_fetch hr hf, exec_in_of_none (State.nextChar_none.2 ⟨hx, hl⟩)]
  · have hfetch := (fetch_with_runState s .waitingInput).trans hf
    have hcode := State.nextChar_of_line (s := { s with runState := .running, lines := s.lines ++ [line] })
      (l := line) (rest := []) hx (by rw [hl]; rfl)
    refine (deliverLine_of_waiting rfl hfetch line).trans ((exec_in_of_some hcode r).trans ?_)
    rw [hr, hl]

/-! ### The frames -/

section
variable {s t : State}

/-- `out` enters a fault, or appends to the output and advances. -/
theorem execOut_frame {a : Operand} (h : execOut a s = .next t) :
    t.regs = s.regs ∧ t.stack = s.stack ∧ SameMemory s t ∧ SameInput s t ∧ t.params = s.params ∧
      SameStatusOrFaulted s t ∧ (t.outTrace = s.outTrace ∨ ∃ c, t.outTrace = s.outTrace ++ [c]) := by
  obtain ⟨f, rfl⟩ | ⟨c, -, rfl⟩ := execOut_next h
  · obtain ⟨hmem, hout, hinput, hparams, hstatus⟩ := keepsAllButRegsAndStack_faultEntry (s := s) f
    exact ⟨rfl, rfl, hmem, hinput, hparams, hstatus, .inl hout⟩
  · exact ⟨rfl, rfl, fun _ => rfl, ⟨rfl, rfl, rfl⟩, rfl, .inl ⟨rfl, rfl⟩, .inr ⟨c, rfl⟩⟩

/-- `in` enters a fault, takes a code from the channel into its register, or begins to wait. -/
theorem execIn_frame {d : Operand} (h : execIn d s = .next t) :
    t.stack = s.stack ∧ SameMemory s t ∧ t.outTrace = s.outTrace ∧ t.params = s.params ∧
      (t = { s with runState := .waitingInput } ∨ SameStatusOrFaulted s t) := by
  obtain ⟨f, rfl⟩ | ⟨r, -, ⟨c, s', hc, rfl⟩ | ⟨-, rfl⟩⟩ := execIn_next h
  · obtain ⟨hmem, hout, -, hparams, hstatus⟩ := keepsAllButRegsAndStack_faultEntry (s := s) f
    exact ⟨rfl, hmem, hout, hparams, .inr hstatus⟩
  · rw [State.nextChar_frame hc]
    exact ⟨rfl, fun _ => rfl, rfl, rfl, .inr (.inl ⟨rfl, rfl⟩)⟩
  · exact ⟨rfl, fun _ => rfl, rfl, rfl, .inl rfl⟩

end

/-- Settles O40: the frame of each, and that an instruction writes no register but its destination. -/
theorem characterInstructionFrame : Obligations.CharacterInstructionFrame :=
  ⟨fun _ _ _ h => execOut_frame h, fun _ _ _ h =>
    ⟨fun _ hr => (exec_writes h).reg_eq fun hd => hr (Option.some.inj hd), execIn_frame h⟩⟩

end Sys2Proof.Machine
end

section
/-! PROOFS. `halt` and `noop` (47_halt_noop.md R180, R181): the default advance of a one-cell instruction, and for
`halt` the run state. -/

namespace Sys2Proof.Machine

/-- The default advance past an instruction of one cell changes `pc` alone (R18). -/
theorem State.advance_one (s : State) : s.advance 1 = { s with pc := s.pc + 1 } := rfl

theorem exec_halt (s : State) : exec .halt s = .next (s.halt.advance 1) := rfl

theorem exec_noop (s : State) : exec .noop s = .next (s.advance 1) := rfl

/-- Settles O33: `halt` takes the default advance after it has set the run state (decision D12). -/
theorem haltStops : Obligations.HaltStops := fun s =>
  (exec_halt s).trans (congrArg Host.Outcome.next s.halt.advance_one)

/-- Settles O34: the default advance is all that `noop` does. -/
theorem noopOnlyAdvances : Obligations.NoopOnlyAdvances := fun s =>
  (exec_noop s).trans (congrArg Host.Outcome.next s.advance_one)

end Sys2Proof.Machine
end

section
/-! PROOFS. Execution faults (60_exceptions.md R200 to R213): the one fault an instruction raises in a state, if any,
and for every instruction that it enters that fault, or completes or waits. -/

namespace Sys2Proof.Machine

open Sys2Proof.Claims

/-! ### The fault of an instruction -/

/-- The fault of the destination, if the instruction has one that names no register (R69). -/
def destFault : Option Operand → Option FaultCause
  | some (.lit _) => some .invalidWriteTarget
  | some (.invalid _) => some .addressOutOfRange
  | some (.reg _) => none
  | none => none

/-- The fault of operands read in order: the first invalid one's, else the fault `later` that is examined after them
(R68, R71). -/
def readsFault (later : Option FaultCause) : List Operand → Option FaultCause
  | [] => later
  | .invalid _ :: _ => some .addressOutOfRange
  | .lit _ :: os => readsFault later os
  | .reg _ :: os => readsFault later os

/-- The fault an instruction raises when its operands have resolved (R207, R208). -/
def executionFault (s : State) : Instr → Option FaultCause
  | .pop _ => if s.stack = [] then some .stackUnderflow else none
  | .ret => if s.stack = [] ∧ s.params.retEmptyPolicy = .fault then some .stackUnderflow else none
  | .mod _ _ b => if resolveRead s b = .ok 0 then some .divisionByZeroModulus else none
  | _ => none

/-- The fault an instruction raises, in the order of R213: of the destination, of an operand it reads, of its
execution. -/
def faultOf (s : State) (i : Instr) : Option FaultCause :=
  (destFault (destOf i)).or (readsFault (executionFault s i) (readsOf s i))

/-- What an instruction that enters no fault does to `RUN_STATE` (R201): nothing, unless it is `halt`; a halt, of
`halt` or of `ret` under the policy `halt`; or the wait of an `in` with nothing to read, and no other change. -/
def Completion (i : Instr) (s t : State) : Prop :=
  (t.runState = s.runState ∧ i ≠ .halt) ∨
  (t.runState = .halted ∧ (i = .halt ∨ i = .ret ∧ s.stack = [] ∧ s.params.retEmptyPolicy = .halt)) ∨
  (t = { s with runState := .waitingInput } ∧ (∃ r, i = .inp (.reg r)) ∧ s.exhausted ∧ s.lines = [])

/-- A result is the entry of the fault given, or if none is given a next state that satisfies `P`. -/
def Ends (s : State) (P : State → Prop) (r : Result) : Option FaultCause → Prop
  | some f => r = raise f s
  | none => ∃ t, r = .next t ∧ P t

section
variable {s : State} {P : State → Prop}

theorem State.pop_runState {s s' : State} {v : Cell} (h : s.pop = some (v, s')) : s'.runState = s.runState := by
  obtain ⟨-, rfl⟩ := State.pop_some h
  rfl

theorem State.nextChar_runState {s s' : State} {c : Nat} (h : s.nextChar = some (c, s')) :
    s'.runState = s.runState := by
  rw [State.nextChar_frame h]

theorem withSource_ends {a : Operand} {k : Word → Result} {later : Option FaultCause} {os : List Operand}
    (h : ∀ v, resolveRead s a = .ok v → Ends s P (k v) (readsFault later os)) :
    Ends s P (withSource s a k) (readsFault later (a :: os)) := by
  cases a with
  | lit v => exact h v rfl
  | reg i => exact h (s.reg i) rfl
  | invalid c => exact rfl

theorem withDest_ends {d : Operand} {k : Fin 8 → Result} {later : Option FaultCause}
    (h : ∀ r, d = .reg r → Ends s P (k r) later) : Ends s P (withDest s d k) ((destFault (some d)).or later) := by
  cases d with
  | lit v => exact rfl
  | reg r => exact h r rfl
  | invalid c => exact rfl

theorem jumpTo_ends {i : Instr} (hi : i ≠ .halt) (a : Operand) :
    Ends s (Completion i s) (jumpTo a s) (readsFault none [a]) :=
  withSource_ends fun _ _ => ⟨_, rfl, .inl ⟨rfl, hi⟩⟩

theorem threeOperand_ends {i : Instr} (hi : i ≠ .halt) (f : Word → Word → Nat) (d a b : Operand) :
    Ends s (Completion i s) (threeOperand f d a b s) ((destFault (some d)).or (readsFault none [a, b])) :=
  withDest_ends fun _ _ => withSource_ends fun _ _ => withSource_ends fun _ _ =>
    ⟨_, rfl, .inl ⟨rfl, hi⟩⟩

theorem execMod_ends (d a b : Operand) :
    Ends s (Completion (.mod d a b) s) (execMod d a b s) (faultOf s (.mod d a b)) :=
  withDest_ends fun _ _ => withSource_ends fun _ _ => withSource_ends fun y hy => by
    change Ends s _ _ (if resolveRead s b = .ok 0 then some .divisionByZeroModulus else none)
    rw [hy]
    by_cases hzero : y = 0
    · rw [if_pos hzero, if_pos (congrArg _ hzero)]
      exact rfl
    · rw [if_neg hzero, if_neg fun hc => hzero (Except.ok.inj hc)]
      exact ⟨_, rfl, .inl ⟨rfl, nofun⟩⟩

theorem execPop_ends (d : Operand) : Ends s (Completion (.pop d) s) (execPop d s) (faultOf s (.pop d)) :=
  withDest_ends fun r _ => by
    change Ends s _ _ (if s.stack = [] then some .stackUnderflow else none)
    cases hp : s.pop with
    | none =>
      rw [if_pos (State.pop_none.1 hp)]
      exact rfl
    | some p =>
      obtain ⟨hstack, -⟩ := State.pop_some hp
      have hsame := State.pop_runState hp
      rw [if_neg (by simp [hstack])]
      exact ⟨_, rfl, .inl ⟨hsame, nofun⟩⟩

theorem execRet_ends : Ends s (Completion .ret s) (execRet s) (faultOf s .ret) := by
  change Ends s _ (exec .ret s) (if s.stack = [] ∧ s.params.retEmptyPolicy = .fault then some .stackUnderflow else none)
  cases hp : s.pop with
  | some p =>
    obtain ⟨hstack, -⟩ := State.pop_some hp
    have hsame := State.pop_runState hp
    rw [if_neg (by simp [hstack])]
    exact ⟨_, exec_ret_of_some hp, .inl ⟨hsame, nofun⟩⟩
  | none =>
    have hempty := State.pop_none.1 hp
    cases hpolicy : s.params.retEmptyPolicy with
    | fault =>
      rw [if_pos ⟨hempty, rfl⟩]
      exact exec_ret_of_none_fault hp hpolicy
    | halt =>
      rw [if_neg (by simp)]
      exact ⟨_, exec_ret_of_none_halt hp hpolicy, .inr (.inl ⟨rfl, .inr ⟨rfl, hempty, hpolicy⟩⟩)⟩

theorem execIn_ends (d : Operand) : Ends s (Completion (.inp d) s) (execIn d s) (faultOf s (.inp d)) :=
  withDest_ends fun r hd => by
    cases hc : s.nextChar with
    | some p =>
      have hsame := State.nextChar_runState hc
      exact ⟨_, rfl, .inl ⟨hsame, nofun⟩⟩
    | none =>
      obtain ⟨hexhausted, hlines⟩ := State.nextChar_none.1 hc
      exact ⟨_, rfl, .inr (.inr ⟨rfl, ⟨r, congrArg Instr.inp hd⟩, hexhausted, hlines⟩)⟩

/-- A source operand tested against 0 decides what is read after it (R72). -/
theorem withSource_zero_ends {c : Operand} {r₀ r₁ : Result} {later : Option FaultCause} {os₀ os₁ : List Operand}
    (h₀ : Ends s P r₀ (readsFault later os₀)) (h₁ : Ends s P r₁ (readsFault later os₁)) :
    Ends s P (withSource s c fun x => if x = 0 then r₀ else r₁)
      (readsFault later (if resolveRead s c = .ok 0 then c :: os₀ else c :: os₁)) := by
  by_cases hzero : resolveRead s c = .ok 0
  · rw [if_pos hzero]
    refine withSource_ends fun x hx => ?_
    rw [if_pos (Except.ok.inj (hx.symm.trans hzero))]
    exact h₀
  · rw [if_neg hzero]
    refine withSource_ends fun x hx => ?_
    rw [if_neg fun hc => hzero (hx.trans (congrArg _ hc))]
    exact h₁

/-- `jt` tests its condition against 0, as `jf` does (R121). -/
theorem exec_jt (c a : Operand) (s : State) :
    exec (.jt c a) s = withSource s c fun x => if x = 0 then .next (s.advance 3) else jumpTo a s :=
  congrArg (withSource s c) (funext fun x => ite_not (x = 0) _ _)

/-- Every instruction enters the fault that is its own in the state, or completes or waits (R200). -/
theorem exec_ends (i : Instr) : Ends s (Completion i s) (exec i s) (faultOf s i) := by
  cases i with
  | halt => exact ⟨_, rfl, .inr (.inl ⟨rfl, .inl rfl⟩)⟩
  | noop => exact ⟨_, rfl, .inl ⟨rfl, nofun⟩⟩
  | set | not | rmem => exact withDest_ends fun _ _ => withSource_ends fun _ _ => ⟨_, rfl, .inl ⟨rfl, nofun⟩⟩
  | push | call | out => exact withSource_ends fun _ _ => ⟨_, rfl, .inl ⟨rfl, nofun⟩⟩
  | wmem => exact withSource_ends fun _ _ => withSource_ends fun _ _ => ⟨_, rfl, .inl ⟨rfl, nofun⟩⟩
  | eq | gt | add | mult | and | or => exact threeOperand_ends (by nofun) _ _ _ _
  | mod => exact execMod_ends _ _ _
  | pop => exact execPop_ends _
  | jmp => exact jumpTo_ends (by nofun) _
  | jt c a =>
    rw [exec_jt]
    exact withSource_zero_ends ⟨_, rfl, .inl ⟨rfl, nofun⟩⟩ (jumpTo_ends (by nofun) a)
  | jf c a =>
    rw [exec_jf]
    exact withSource_zero_ends (jumpTo_ends (by nofun) a) ⟨_, rfl, .inl ⟨rfl, nofun⟩⟩
  | ret => exact execRet_ends
  | inp => exact execIn_ends _

end

/-! ### Progress and precise faults -/

section
variable {s t : State} {i : Instr} {f : FaultCause}

theorem exec_of_faultOf_some (h : faultOf s i = some f) : exec i s = .next (faulted s f) := by
  have hends := exec_ends (s := s) i
  rwa [h] at hends

theorem exec_of_faultOf_none (h : faultOf s i = none) : ∃ t, exec i s = .next t ∧ Completion i s t := by
  have hends := exec_ends (s := s) i
  rwa [h] at hends

/-- The next state of an instruction: the entry of its fault, or what it completes or waits with. -/
theorem exec_next (h : exec i s = .next t) :
    (∃ f, faultOf s i = some f ∧ t = faulted s f) ∨ faultOf s i = none ∧ Completion i s t := by
  cases hf : faultOf s i with
  | some f => exact .inl ⟨f, rfl, Host.Outcome.next.inj (h.symm.trans (exec_of_faultOf_some hf))⟩
  | none =>
    obtain ⟨u, hu, hcompletion⟩ := exec_of_faultOf_none hf
    exact .inr ⟨rfl, Host.Outcome.next.inj (hu.symm.trans h) ▸ hcompletion⟩

theorem Completion.runState_ne_faulted (h : Completion i s t) (hr : s.runState = .running) :
    t.runState ≠ .faulted := by
  obtain ⟨ht, -⟩ | ⟨ht, -⟩ | ⟨rfl, -⟩ := h
  · simp [ht, hr]
  · simp [ht]
  · simp

/-- A `Running` core enters a fault exactly if it is the instruction's own. -/
theorem exec_eq_faulted_iff (hr : s.runState = .running) :
    exec i s = .next (faulted s f) ↔ faultOf s i = some f := by
  refine ⟨fun h => ?_, exec_of_faultOf_some⟩
  obtain ⟨g, hg, heq⟩ | ⟨-, hcompletion⟩ := exec_next h
  · obtain rfl : f = g := Option.some.inj (congrArg State.faultCause heq)
    exact hg
  · exact absurd rfl (hcompletion.runState_ne_faulted hr)

end

/-- Settles O12: the fault of the instruction is entered, or there is none and it completes or waits. -/
theorem everyInstructionAnswers : Obligations.EveryInstructionAnswers := by
  intro i s
  cases hf : faultOf s i with
  | some f => exact ⟨_, exec_of_faultOf_some hf⟩
  | none =>
    obtain ⟨t, ht, -⟩ := exec_of_faultOf_none hf
    exact ⟨t, ht⟩

/-- Settles O14: an instruction that enters no fault of its own does not end `Faulted`. -/
theorem faultsArePrecise : Obligations.FaultsArePrecise := by
  intro i s t hr h ht
  obtain ⟨f, -, hfault⟩ | ⟨-, hcompletion⟩ := exec_next h
  · exact ⟨f, hfault⟩
  · exact absurd ht (hcompletion.runState_ne_faulted hr)

/-! ### Each fault exactly -/

section
variable {s : State} {i : Instr} {f : FaultCause} {o : Option Operand} {later : Option FaultCause} {os : List Operand}

theorem destFault_eq_some : destFault o = some f ↔
    (f = .invalidWriteTarget ∧ ∃ v, o = some (.lit v)) ∨ (f = .addressOutOfRange ∧ ∃ c, o = some (.invalid c)) := by
  cases o with
  | none => simp [destFault]
  | some d => cases d <;> simp [destFault, eq_comm]

theorem destFault_some_eq_none {d : Operand} : destFault (some d) = none ↔ ∃ r, d = .reg r := by
  cases d <;> simp [destFault]

theorem destFault_eq_none : destFault o = none ↔ (∀ v, o ≠ some (.lit v)) ∧ ∀ c, o ≠ some (.invalid c) := by
  cases o with
  | none => simp [destFault]
  | some d => cases d <;> simp [destFault]

theorem readsFault_eq_some : readsFault later os = some f ↔
    (f = .addressOutOfRange ∧ ∃ c, .invalid c ∈ os) ∨ (∀ c, .invalid c ∉ os) ∧ later = some f := by
  induction os with
  | nil => simp [readsFault]
  | cons a os ih =>
    cases a with
    | lit v => simpa [readsFault] using ih
    | reg r => simpa [readsFault] using ih
    | invalid c =>
      have hmem : Operand.invalid c ∈ Operand.invalid c :: os := List.mem_cons_self
      exact ⟨fun h => .inl ⟨(Option.some.inj h).symm, c, hmem⟩,
        fun h => h.elim (fun h => congrArg some h.1.symm) fun h => absurd hmem (h.1 c)⟩

theorem executionFault_eq_some : executionFault s i = some f ↔
    (f = .stackUnderflow ∧ s.stack = [] ∧ ((∃ d, i = .pop d) ∨ i = .ret ∧ s.params.retEmptyPolicy = .fault)) ∨
    (f = .divisionByZeroModulus ∧ ∃ d a b, i = .mod d a b ∧ resolveRead s b = .ok 0) := by
  cases i with
  | pop | ret | mod => simp [executionFault, and_comm, eq_comm]
  | _ => simp [executionFault]

theorem faultOf_eq_some : faultOf s i = some f ↔ destFault (destOf i) = some f ∨
    destFault (destOf i) = none ∧ readsFault (executionFault s i) (readsOf s i) = some f :=
  Option.or_eq_some_iff

theorem faultOf_eq_invalidWriteTarget :
    faultOf s i = some .invalidWriteTarget ↔ ∃ v, destOf i = some (.lit v) := by
  simp [faultOf_eq_some, destFault_eq_some, readsFault_eq_some, executionFault_eq_some]

theorem faultOf_eq_addressOutOfRange : faultOf s i = some .addressOutOfRange ↔
    (∃ c, destOf i = some (.invalid c)) ∨ destFault (destOf i) = none ∧ ∃ c, .invalid c ∈ readsOf s i := by
  simp [faultOf_eq_some, destFault_eq_some, readsFault_eq_some, executionFault_eq_some]

/-- A fault that is not of an operand comes after the operands (R213). -/
theorem faultOf_eq_of_execution (hw : f ≠ .invalidWriteTarget) (ha : f ≠ .addressOutOfRange) :
    faultOf s i = some f ↔
      destFault (destOf i) = none ∧ (∀ c, .invalid c ∉ readsOf s i) ∧ executionFault s i = some f := by
  simp [faultOf_eq_some, destFault_eq_some, readsFault_eq_some, hw, ha]

theorem faultOf_eq_stackUnderflow : faultOf s i = some .stackUnderflow ↔ s.stack = [] ∧
    ((∃ r, i = .pop (.reg r)) ∨ (i = .ret ∧ s.params.retEmptyPolicy = .fault)) := by
  rw [faultOf_eq_of_execution (by decide) (by decide), executionFault_eq_some]
  constructor
  · rintro ⟨hdest, -, ⟨-, hempty, ⟨d, rfl⟩ | hret⟩ | ⟨hne, -⟩⟩
    · obtain ⟨r, rfl⟩ := destFault_some_eq_none.1 hdest
      exact ⟨hempty, .inl ⟨r, rfl⟩⟩
    · exact ⟨hempty, .inr hret⟩
    · cases hne
  · rintro ⟨hempty, ⟨r, rfl⟩ | ⟨rfl, hpolicy⟩⟩
    · exact ⟨rfl, fun _ => List.not_mem_nil, .inl ⟨rfl, hempty, .inl ⟨_, rfl⟩⟩⟩
    · exact ⟨rfl, fun _ => List.not_mem_nil, .inl ⟨rfl, hempty, .inr ⟨rfl, hpolicy⟩⟩⟩

/-- An operand resolves unless it is invalid (R68). -/
theorem exists_resolveRead_iff {a : Operand} : (∃ x, resolveRead s a = .ok x) ↔ ∀ c, .invalid c ≠ a := by
  cases a <;> simp

theorem faultOf_eq_divisionByZeroModulus : faultOf s i = some .divisionByZeroModulus ↔
    ∃ r a b x, i = .mod (.reg r) a b ∧ resolveRead s a = .ok x ∧ resolveRead s b = .ok 0 := by
  rw [faultOf_eq_of_execution (by decide) (by decide), executionFault_eq_some]
  constructor
  · rintro ⟨hdest, hreads, ⟨hne, -⟩ | ⟨-, d, a, b, rfl, hzero⟩⟩
    · cases hne
    · obtain ⟨r, rfl⟩ := destFault_some_eq_none.1 hdest
      obtain ⟨x, hx⟩ := exists_resolveRead_iff.2 fun c hc => hreads c (hc ▸ List.mem_cons_self)
      exact ⟨r, a, b, x, rfl, hx, hzero⟩
  · rintro ⟨r, a, b, x, rfl, hx, hzero⟩
    refine ⟨rfl, fun c hc => ?_, .inr ⟨rfl, _, a, b, rfl, hzero⟩⟩
    have hpair : Operand.invalid c = a ∨ Operand.invalid c = b := List.mem_pair.1 hc
    exact hpair.elim (exists_resolveRead_iff.1 ⟨x, hx⟩ c) (exists_resolveRead_iff.1 ⟨0, hzero⟩ c)

/-- No instruction raises a fault of the fetch (R206, R209). -/
theorem faultOf_ne_of_fetch (hf : f = .unknownOpcode ∨ f = .fetchOutOfRange) : faultOf s i ≠ some f := by
  obtain rfl | rfl := hf
  · simp [faultOf_eq_of_execution, executionFault_eq_some]
  · simp [faultOf_eq_of_execution, executionFault_eq_some]

end

/-- Settles O15: only a destination raises this fault, and before any other is examined. -/
theorem invalidWriteTargetExactly : Obligations.InvalidWriteTargetExactly := fun _ _ hr =>
  (exec_eq_faulted_iff hr).trans faultOf_eq_invalidWriteTarget

/-- Settles O16: an invalid destination raises this fault, or an invalid operand read after the destination. -/
theorem addressOutOfRangeExactly : Obligations.AddressOutOfRangeExactly := by
  intro i s hr
  rw [exec_eq_faulted_iff hr, faultOf_eq_addressOutOfRange, destFault_eq_none]
  constructor
  · rintro (⟨c, hc⟩ | ⟨⟨hlit, -⟩, hread⟩)
    · exact ⟨by simp [hc], .inl ⟨c, hc⟩⟩
    · exact ⟨hlit, .inr hread⟩
  · rintro ⟨hlit, hdest | hread⟩
    · exact .inl hdest
    · by_cases hdest : ∃ c, destOf i = some (.invalid c)
      · exact .inl hdest
      · exact .inr ⟨⟨hlit, not_exists.1 hdest⟩, hread⟩

/-- Settles O17: the execution is examined once the operands have resolved. -/
theorem executionFaultsExactly : Obligations.ExecutionFaultsExactly := fun _ _ hr =>
  ⟨(exec_eq_faulted_iff hr).trans faultOf_eq_stackUnderflow,
    (exec_eq_faulted_iff hr).trans faultOf_eq_divisionByZeroModulus,
    fun h => faultOf_ne_of_fetch (.inl rfl) ((exec_eq_faulted_iff hr).1 h),
    fun h => faultOf_ne_of_fetch (.inr rfl) ((exec_eq_faulted_iff hr).1 h)⟩

/-! ### The transitions of `RUN_STATE` -/

section
variable {s t : State}

/-- A waiting core that goes on runs: its `in` has a code to take (R201, R225). -/
theorem resumeIn_runState (h : resumeIn s = .next t) :
    t.runState = .running ∧ (∃ r, fetch s = .ok (.inp (.reg r))) ∧ ¬ (s.exhausted ∧ s.lines = []) := by
  obtain ⟨r, hf, hcode, h⟩ := resumeIn_next h
  have hread : ¬ (s.exhausted ∧ s.lines = []) := fun hnone => hcode (State.nextChar_none.2 hnone)
  refine ⟨?_, ⟨r, hf⟩, hread⟩
  obtain ⟨f, hfault, -⟩ | ⟨-, ⟨ht, -⟩ | ⟨-, hhalt⟩ | ⟨-, -, hwait⟩⟩ := exec_next (i := .inp (.reg r)) h
  · cases hfault
  · exact ht
  · obtain hhalt | ⟨hret, -⟩ := hhalt
    · cases hhalt
    · cases hret
  · exact absurd hwait hread

end

/-- Settles O13: a `Running` core enters a fault, or its instruction completes or waits; a waiting one goes on to
run. -/
theorem runStateTransitions : Obligations.RunStateTransitions := by
  refine ⟨fun s t h => ?step, fun s t line h => ?delivery⟩
  case step =>
    obtain ⟨hr, ⟨i, hf, h⟩ | ⟨f, -, hfault⟩⟩ | ⟨hw, h⟩ := step_next h
    · refine .inl ⟨hr, ?_⟩
      simp only [hf, ne_eq, Except.ok.injEq]
      obtain ⟨f, -, hfault⟩ | ⟨-, ⟨ht, hne⟩ | hhalt | hwait⟩ := exec_next h
      · exact .inr (.inl ⟨f, hfault⟩)
      · exact .inl ⟨ht.trans hr, hne⟩
      · exact .inr (.inr (.inl hhalt))
      · exact .inr (.inr (.inr hwait))
    · exact .inl ⟨hr, .inr (.inl ⟨f, hfault⟩)⟩
    · exact .inr ⟨hw, resumeIn_runState h⟩
  case delivery =>
    obtain ⟨hw, h⟩ | ⟨hne, rfl⟩ := deliverLine_next h
    · obtain ⟨ht, ⟨r, hf⟩, -⟩ := resumeIn_runState h
      exact .inr ⟨hw, ht, r, (fetch_with_lines s _).symm.trans hf⟩
    · exact .inl ⟨hne, rfl⟩

end Sys2Proof.Machine
end

section
/-! PROOFS. The Input Channel (60_exceptions.md R221 to R226): the codes of one line in a row, and the order in which
steps take lines. -/

namespace Sys2Proof.Machine

open Sys2Proof.Claims

/-! ### One line -/

section
variable {s s' : State} {c n : Nat}

theorem takeCodes_succ {cs : List Nat} {u : State} (hc : s.nextChar = some (c, s'))
    (hcs : takeCodes n s' = some (cs, u)) : takeCodes (n + 1) s = some (c :: cs, u) := by
  simp [takeCodes, hc, hcs]

/-- The codes from the cursor to the end of the line, then the terminator (R220, R222). -/
theorem takeCodes_of_drop {cs : List Nat} (hcs : s.icBuf.drop s.icCur = cs) (hcur : s.icCur ≤ s.icBuf.length) :
    takeCodes (cs.length + 1) s =
      some (cs ++ [s.params.lineTerminatorCode], { s with icCur := s.icBuf.length + 1 }) := by
  induction cs generalizing s with
  | nil =>
    have hend : s.icCur = s.icBuf.length := Nat.le_antisymm hcur (List.drop_eq_nil_iff.1 hcs)
    rw [← hend]
    exact takeCodes_succ (State.nextChar_of_buffered (State.bufferedChar_of_end hend)) rfl
  | cons c cs ih =>
    have hlt : s.icCur < s.icBuf.length := by
      have hlen := congrArg List.length hcs
      simp only [List.length_drop, List.length_cons] at hlen
      omega
    rw [List.drop_eq_getElem_cons hlt] at hcs
    obtain ⟨hchar, hrest⟩ := List.cons.inj hcs
    have hcode := State.bufferedChar_of_char (List.getElem?_eq_some_iff.2 ⟨hlt, hchar⟩)
    exact takeCodes_succ (State.nextChar_of_buffered hcode) (ih (s := { s with icCur := s.icCur + 1 }) hrest hlt)

/-- An exhausted channel is read as if its first line were already loaded (R220). -/
theorem State.nextChar_eq_loaded {l : List Nat} {rest : List (List Nat)} (hx : s.exhausted) (hl : s.lines = l :: rest) :
    s.nextChar = State.nextChar { s with icBuf := l, icCur := 0, lines := rest } :=
  (State.nextChar_of_line hx hl).trans (State.nextChar_of_buffered (s.bufferedChar_of_loaded l rest)).symm

theorem takeCodes_congr {t : State} (h : s.nextChar = t.nextChar) (n : Nat) :
    takeCodes (n + 1) s = takeCodes (n + 1) t := by
  rw [takeCodes, takeCodes, h]

end

/-- Settles O47: the line is loaded with the cursor at its first code. -/
theorem lineGivesItsCodesThenTheTerminator : Obligations.LineGivesItsCodesThenTheTerminator :=
  fun _ l _ hx hl => (takeCodes_congr (State.nextChar_eq_loaded hx hl) l.length).trans
    (takeCodes_of_drop rfl (Nat.zero_le _))

/-! ### The order of lines -/

/-- How a step may change the Input Channel (R221): within its line the cursor moves on by at most one, or, exhausted,
it takes the first line of the queue and reads its first code. -/
def TakesInOrder (s t : State) : Prop :=
  (t.lines = s.lines ∧ t.icBuf = s.icBuf ∧ s.icCur ≤ t.icCur ∧ t.icCur ≤ s.icCur + 1) ∨
  (s.exhausted ∧ s.lines = t.icBuf :: t.lines ∧ t.icCur = 1)

section
variable {s t : State}

theorem takesInOrder_of_sameInput (h : SameInput s t) : TakesInOrder s t := by
  obtain ⟨hbuf, hcur, hlines⟩ := h
  exact .inl ⟨hlines, hbuf, by omega, by omega⟩

theorem nextChar_takesInOrder {c : Nat} (h : s.nextChar = some (c, t)) : TakesInOrder s t := by
  obtain hc | ⟨hnone, l, rest, hl, hc⟩ := State.nextChar_some h
  · obtain ⟨-, rfl⟩ := State.bufferedChar_some hc
    exact .inl ⟨rfl, rfl, Nat.le_succ _, le_rfl⟩
  · obtain ⟨-, rfl⟩ := State.bufferedChar_some hc
    exact .inr ⟨State.bufferedChar_none.1 hnone, hl, rfl⟩

theorem execIn_takesInOrder {d : Operand} (h : execIn d s = .next t) : TakesInOrder s t := by
  obtain ⟨f, rfl⟩ | ⟨r, -, ⟨c, s', hc, rfl⟩ | ⟨-, rfl⟩⟩ := execIn_next h
  · exact takesInOrder_of_sameInput ⟨rfl, rfl, rfl⟩
  · have htaken := nextChar_takesInOrder hc
    exact htaken
  · exact takesInOrder_of_sameInput ⟨rfl, rfl, rfl⟩

/-- No instruction but `in` touches the Input Channel (R27). -/
theorem exec_sameInput {i : Instr} (hi : ∀ d, i ≠ .inp d) (h : exec i s = .next t) : SameInput s t := by
  cases i with
  | set d a | not d a | rmem d a =>
    obtain ⟨-, -, -, -, hinput, -⟩ := registerInstructionFrame _ d a a s t (by simp) h
    exact hinput
  | eq d a b | gt d a b | add d a b | mult d a b | mod d a b | and d a b | or d a b =>
    obtain ⟨-, -, -, -, hinput, -⟩ := registerInstructionFrame _ d a b s t (by simp) h
    exact hinput
  | push a | pop a | call a =>
    obtain ⟨-, -, -, -, hinput, -⟩ := stackInstructionFrame _ a a s t (by simp) h
    exact hinput
  | ret =>
    obtain ⟨-, -, -, -, hinput, -⟩ := stackInstructionFrame _ (.lit 0) (.lit 0) s t (by simp) h
    exact hinput
  | jmp a =>
    obtain ⟨-, -, -, -, hinput, -⟩ := controlInstructionFrame _ a a s t (by simp) h
    exact hinput
  | jt c a | jf c a =>
    obtain ⟨-, -, -, -, hinput, -⟩ := controlInstructionFrame _ c a s t (by simp) h
    exact hinput
  | noop | halt =>
    obtain ⟨-, -, -, -, hinput, -⟩ := controlInstructionFrame _ (.lit 0) (.lit 0) s t (by simp) h
    exact hinput
  | wmem d a =>
    obtain ⟨-, -, -, -, -, hinput, -⟩ := wmemFrame d a s t h
    exact hinput
  | out a =>
    obtain ⟨-, -, -, hinput, -⟩ := execOut_frame h
    exact hinput
  | inp d => exact absurd rfl (hi d)

theorem exec_takesInOrder {i : Instr} (h : exec i s = .next t) : TakesInOrder s t := by
  by_cases hi : ∃ d, i = .inp d
  · obtain ⟨d, rfl⟩ := hi
    exact execIn_takesInOrder h
  · exact takesInOrder_of_sameInput (exec_sameInput (fun d hd => hi ⟨d, hd⟩) h)

end

/-- Settles O48: only the execution of an `in` takes a line, in a `Running` core or at the end of a wait. -/
theorem linesAreTakenInOrder : Obligations.LinesAreTakenInOrder := by
  intro s t h
  obtain ⟨-, ⟨i, -, h⟩ | ⟨f, -, rfl⟩⟩ | ⟨-, h⟩ := step_next h
  · exact exec_takesInOrder h
  · exact takesInOrder_of_sameInput ⟨rfl, rfl, rfl⟩
  · obtain ⟨r, -, -, h⟩ := resumeIn_next h
    exact execIn_takesInOrder (s := { s with runState := .running }) h

end Sys2Proof.Machine
end

section
/-! PROOFS. A step and the host's transactions (60_exceptions.md R200 to R202, R221, R225; 70_reset_and_hazards.md R242):
what a step does in each `RUN_STATE`, deliveries, boot, and from these every state of every run. -/

namespace Sys2Proof.Machine

open Sys2Proof.Claims

/-! ### The step and the delivery -/

section
variable {s : State}

/-- A `Running` core enters the fault of its fetch (R210). -/
theorem step_of_fetch_error {f : FaultCause} (hr : s.runState = .running) (hf : fetch s = .error f) :
    step s = .next (faulted s f) := by
  simp only [step, hr, hf]
  rfl

theorem step_of_halted (h : s.runState = .halted) : step s = .fault .coreHalted := by
  simp [step, h]

theorem step_of_faulted (h : s.runState = .faulted) : step s = .fault .coreFaulted := by
  simp [step, h]

/-- A core that waits with nothing to read takes no step (R172). -/
theorem step_of_waiting (h : s.runState = .waitingInput) (hx : s.exhausted) (hl : s.lines = []) :
    step s = .fault .waitingForLine := by
  simp [step, h, resumeIn, State.nextChar_none.2 ⟨hx, hl⟩]

theorem step_of_running (h : s.runState = .running) : ∃ t, step s = .next t := by
  cases hf : fetch s with
  | ok i => exact step_of_fetch h hf ▸ everyInstructionAnswers i s
  | error f => exact ⟨_, step_of_fetch_error h hf⟩

theorem deliverLine_of_not_waiting (h : s.runState ≠ .waitingInput) (line : List Nat) :
    deliverLine line s = .next { s with lines := s.lines ++ [line] } := by
  unfold deliverLine
  split
  · exact absurd ‹_› h
  · rfl

end

/-- Settles O10: the cells at `pc` are fetched as the instruction they encode. -/
theorem stepRunsTheInstructionAtPc : Obligations.StepRunsTheInstructionAtPc :=
  ⟨fun _ _ hr hwf hin hcells => step_of_fetch hr (fetch_of_encode hwf hin hcells), fun _ _ => step_of_fetch_error⟩

/-- Settles O50. -/
theorem deliveryQueuesALine : Obligations.DeliveryQueuesALine := fun _ line h => deliverLine_of_not_waiting h line

/-- Settles O11: a core that does not wait has a delivered line queued only, and one that waits has nothing to read. -/
theorem terminalStatesDoNothing : Obligations.TerminalStatesDoNothing := by
  refine ⟨fun _ => step_of_halted, fun _ => step_of_faulted, fun s line h => ?_, fun _ => step_of_waiting⟩
  refine deliverLine_of_not_waiting (fun hw => ?_) line
  simp [hw] at h

/-! ### The invariant after a delivery -/

section
variable {s : State}

/-- A line queued by a core that does not wait is no matter of the invariant. -/
theorem State.Inv.queue (h : s.Inv) (hw : s.runState ≠ .waitingInput) (ls : List (List Nat)) :
    State.Inv { s with lines := ls } where
  pcInRange := h.pcInRange
  stackInRange := h.stackInRange
  memCanonical := h.memCanonical
  causeIffFaulted := h.causeIffFaulted
  waitsAtIn hc := absurd hc hw
  waitsForLine hc := absurd hc hw

/-- A waiting core set `Running` again, with any lines queued, is a `Running` core of the invariant. -/
theorem State.Inv.runningInv_of_waiting (h : s.Inv) (hw : s.runState = .waitingInput) (ls : List (List Nat)) :
    State.RunningInv { s with runState := .running, lines := ls } where
  running := rfl
  noCause := by
    by_contra hc
    simp [h.causeIffFaulted.1 hc] at hw
  pcInRange := h.pcInRange
  stackInRange := h.stackInRange
  memCanonical := h.memCanonical

end

/-- Settles O56: the line is queued, or it completes the `in` at which the core waits, which keeps the invariant as
the instruction of a `Running` core. -/
theorem deliveryKeepsTheInvariant : Obligations.DeliveryKeepsTheInvariant := by
  intro s l hs
  by_cases hw : s.runState = .waitingInput
  · obtain ⟨r, hf⟩ := hs.waitsAtIn hw
    have hrunning := hs.runningInv_of_waiting hw (s.lines ++ [l])
    obtain ⟨t, ht⟩ := everyInstructionAnswers (.inp (.reg r)) { s with runState := .running, lines := s.lines ++ [l] }
    refine ⟨t, (deliverLine_of_waiting hw hf l).trans ht, exec_keeps_inv hrunning ?_ ht⟩
    exact (fetch_congr rfl rfl).trans hf
  · exact ⟨_, deliverLine_of_not_waiting hw l, hs.queue hw _⟩

/-! ### Boot -/

section
variable {params : Params} {lines : List (List Nat)} {base : Nat} {b : List (BitVec 8)} {ps : List (Nat × Nat)}
  {s t : State}

/-- Boot succeeds through its two parts: the image load, then the patches (R242). -/
theorem boot_eq_next : boot params lines base b ps = .next t ↔
    ∃ u, loadImage base b { State.reset with params := params, lines := lines } = .next u ∧
      applyPatches ps u = .next t := by
  unfold boot
  cases loadImage base b { State.reset with params := params, lines := lines } <;> simp

theorem loadImage_keeps_runningInv (hs : s.RunningInv) (h : loadImage base b s = .next t) : t.RunningInv := by
  unfold loadImage at h
  split at h
  · cases h
  · split at h
    · cases h
    · obtain rfl := Host.Outcome.next.inj h
      exact ⟨hs.running, hs.noCause, hs.pcInRange, hs.stackInRange, Memory.wf_storeCells hs.memCanonical _ _⟩

theorem applyPatch_keeps_runningInv (hs : s.RunningInv) {a v : Nat} (h : applyPatch a v s = .next t) :
    t.RunningInv := by
  unfold applyPatch at h
  split at h
  · split at h
    · obtain rfl := Host.Outcome.next.inj h
      exact hs.memWrite _ _
    · cases h
  · split at h
    · obtain rfl := Host.Outcome.next.inj h
      exact hs.writeReg _ _
    · cases h

theorem applyPatches_keeps_runningInv (hs : s.RunningInv) (h : applyPatches ps s = .next t) : t.RunningInv := by
  induction ps generalizing s with
  | nil =>
    obtain rfl := Host.Outcome.next.inj h
    exact hs
  | cons p ps ih =>
    obtain ⟨u, hp⟩ | ⟨r, hp⟩ := applyPatch_cases p.1 p.2 s
    · exact ih (applyPatch_keeps_runningInv hs hp) ((applyPatches_cons_of_next hp ps).symm.trans h)
    · cases (applyPatches_cons_of_refused hp ps).symm.trans h

theorem State.reset_runningInv (params : Params) (lines : List (List Nat)) :
    State.RunningInv { State.reset with params := params, lines := lines } where
  running := rfl
  noCause := rfl
  pcInRange := Nat.zero_le _
  stackInRange _ hv := absurd hv List.not_mem_nil
  memCanonical := State.reset_mem_wf

/-- Boot leaves a `Running` core of the invariant (R242). -/
theorem boot_runningInv (h : boot params lines base b ps = .next t) : t.RunningInv := by
  obtain ⟨u, hload, hpatches⟩ := boot_eq_next.1 h
  exact applyPatches_keeps_runningInv (loadImage_keeps_runningInv (State.reset_runningInv _ _) hload) hpatches

end

/-- Settles O58: with no patches, boot is the image load into the reset state. -/
theorem bootResetsLoadsAndPatches : Obligations.BootResetsLoadsAndPatches := by
  refine ⟨fun _ _ _ _ _ _ => boot_eq_next, fun params lines b heven hfit => ?_⟩
  obtain ⟨-, -, hload⟩ := imageLoad 0 b { State.reset with params := params, lines := lines }
  obtain ⟨t, ht, hframe, hcells, -⟩ := hload heven (by omega)
  refine ⟨t, boot_eq_next.2 ⟨t, ht, rfl⟩, hframe, fun i lo hi hlo hhi => ?_⟩
  rw [← Nat.zero_add i]
  exact hcells i lo hi hlo hhi

/-! ### Every state of every run -/

/-- The invariant holds of every state of every run: boot leaves it, and steps and deliveries keep it (R242, R245). -/
theorem Reached.inv {s : State} (h : Reached s) : s.Inv := by
  induction h with
  | boot hboot => exact (boot_runningInv hboot).inv
  | step _ hstep ih => exact stepKeepsTheInvariant _ _ ih hstep
  | @deliver line s t _ hdeliver ih =>
    obtain ⟨u, hu, hinv⟩ := deliveryKeepsTheInvariant s line ih
    obtain rfl : u = t := Host.Outcome.next.inj (hu.symm.trans hdeliver)
    exact hinv

/-- Settles O57: a state of the invariant has a step in `Running`, and waits only with nothing to read. -/
theorem reachedStatesStopOnlyWhereTheSpecSays : Obligations.ReachedStatesStopOnlyWhereTheSpecSays := by
  intro s hreached
  have hs := hreached.inv
  refine ⟨hs, ?_⟩
  cases hr : s.runState with
  | running => exact .inl ⟨rfl, step_of_running hr⟩
  | halted => exact .inr (.inl ⟨rfl, step_of_halted hr⟩)
  | faulted => exact .inr (.inr (.inl ⟨rfl, step_of_faulted hr⟩))
  | waitingInput =>
    obtain ⟨hx, hl⟩ := hs.waitsForLine hr
    exact .inr (.inr (.inr ⟨rfl, step_of_waiting hr hx hl⟩))

end Sys2Proof.Machine
end
